-- ==== Sys2Proof/Word.lean ====
section
/-! DEFINITION. The word types of the machine (rules R3, R4, R61): a byte, a 16-bit word, a 4-bit field and a
12-bit address field. All quantities are unsigned. -/

namespace Sys2Proof

/-- `XLEN`: an 8-bit value, the width of a general register and of a memory cell. -/
abbrev Byte := BitVec 8

/-- An instruction word, `pc`, `I` or a return address: 16 bits. -/
abbrev Word := BitVec 16

/-- A 4-bit field: a register index, a key number, a row count. -/
abbrev Nibble := BitVec 4

/-- The 12-bit field `nnn`. -/
abbrev Addr12 := BitVec 12

end Sys2Proof
end

