-- ==== Sys2Proof/Syntax.lean ====
section
/-! DEFINITION. The 34 instructions of rule R65, one constructor per row of the opcode table, with the operands of
rule R62 at their exact widths: a register index or a row count is 4 bits, `nn` is 8 bits, `nnn` is 12 bits. -/

namespace Sys2Proof

/-- One constructor per row of the opcode map (R65). -/
inductive Instr where
  /-- `CLS`, 00E0 (R142). -/
  | cls
  /-- `RET`, 00EE (R82). -/
  | ret
  /-- `JP nnn`, 1nnn (R80). -/
  | jp (nnn : Addr12)
  /-- `CALL nnn`, 2nnn (R81). -/
  | call (nnn : Addr12)
  /-- `SE Vx, nn`, 3xnn (R83). -/
  | seImm (x : Nibble) (nn : Byte)
  /-- `SNE Vx, nn`, 4xnn (R84). -/
  | sneImm (x : Nibble) (nn : Byte)
  /-- `SE Vx, Vy`, 5xy0 (R85). -/
  | seReg (x y : Nibble)
  /-- `LD Vx, nn`, 6xnn (R101). -/
  | ldImm (x : Nibble) (nn : Byte)
  /-- `ADD Vx, nn`, 7xnn (R102). -/
  | addImm (x : Nibble) (nn : Byte)
  /-- `LD Vx, Vy`, 8xy0 (R103). -/
  | ldReg (x y : Nibble)
  /-- `OR Vx, Vy`, 8xy1 (R104). -/
  | orReg (x y : Nibble)
  /-- `AND Vx, Vy`, 8xy2 (R105). -/
  | andReg (x y : Nibble)
  /-- `XOR Vx, Vy`, 8xy3 (R106). -/
  | xorReg (x y : Nibble)
  /-- `ADD Vx, Vy`, 8xy4 (R107). -/
  | addReg (x y : Nibble)
  /-- `SUB Vx, Vy`, 8xy5 (R108). -/
  | sub (x y : Nibble)
  /-- `SHR Vx, Vy`, 8xy6 (R109). -/
  | shr (x y : Nibble)
  /-- `SUBN Vx, Vy`, 8xy7 (R110). -/
  | subn (x y : Nibble)
  /-- `SHL Vx, Vy`, 8xyE (R111). -/
  | shl (x y : Nibble)
  /-- `SNE Vx, Vy`, 9xy0 (R86). -/
  | sneReg (x y : Nibble)
  /-- `LD I, nnn`, Annn (R120). -/
  | ldI (nnn : Addr12)
  /-- `JP V0, nnn`, Bnnn (R87). -/
  | jpV0 (nnn : Addr12)
  /-- `RND Vx, nn`, Cxnn (R140). -/
  | rnd (x : Nibble) (nn : Byte)
  /-- `DRW Vx, Vy, n`, Dxyn (R141). -/
  | drw (x y n : Nibble)
  /-- `SKP Vx`, Ex9E (R150). -/
  | skp (x : Nibble)
  /-- `SKNP Vx`, ExA1 (R151). -/
  | sknp (x : Nibble)
  /-- `LD Vx, DT`, Fx07 (R152). -/
  | readDt (x : Nibble)
  /-- `LD Vx, K`, Fx0A (R155). -/
  | waitKey (x : Nibble)
  /-- `LD DT, Vx`, Fx15 (R153). -/
  | setDt (x : Nibble)
  /-- `LD ST, Vx`, Fx18 (R154). -/
  | setSt (x : Nibble)
  /-- `ADD I, Vx`, Fx1E (R121). -/
  | addI (x : Nibble)
  /-- `LD F, Vx`, Fx29 (R125). -/
  | ldF (x : Nibble)
  /-- `LD B, Vx`, Fx33 (R124). -/
  | ldB (x : Nibble)
  /-- `LD [I], Vx`, Fx55 (R122). -/
  | storeRegs (x : Nibble)
  /-- `LD Vx, [I]`, Fx65 (R123). -/
  | loadRegs (x : Nibble)
  deriving DecidableEq, Repr

end Sys2Proof
end

