-- ==== Sys2Proof/WellFormed.lean ====
section
/-! DEFINITION. What an operand field may hold (rules R62, R63, R68): `nnn` fits 12 bits, `nn` fits 8 bits, `x`, `y`
and `n` fit 4 bits, all unsigned; a value that does not fit is an error, never truncated. The check is on the plain
numbers an assembler is given; a constructor of `Instr` carries its operands at those widths. -/

namespace Sys2Proof

/-- The operand numbers of an instruction as an assembler is given them, by format (R62). In format `XYN` the last
number is the row count of `DRW` or the fixed low nibble of the row. -/
inductive RawFields where
  | fixed
  | nnn (a : Nat)
  | xnn (vx nn : Nat)
  | xyn (vx vy n : Nat)
  | x (vx : Nat)
  deriving DecidableEq, Repr

/-- Every number fits its field (R68: "`nnn` must fit 12 bits, `nn` 8 bits, `n` 4 bits, all unsigned"). -/
def RawFields.wellFormed : RawFields → Bool
  | .fixed => true
  | .nnn a => decide (a < 4096)
  | .xnn vx nn => decide (vx < 16) && decide (nn < 256)
  | .xyn vx vy n => decide (vx < 16) && decide (vy < 16) && decide (n < 16)
  | .x vx => decide (vx < 16)

/-- The operand numbers of an instruction, in the format of its row (R62). -/
def Instr.rawFields : Instr → RawFields
  | .cls => .fixed
  | .ret => .fixed
  | .jp a => .nnn a.toNat
  | .call a => .nnn a.toNat
  | .seImm x nn => .xnn x.toNat nn.toNat
  | .sneImm x nn => .xnn x.toNat nn.toNat
  | .seReg x y => .xyn x.toNat y.toNat 0
  | .ldImm x nn => .xnn x.toNat nn.toNat
  | .addImm x nn => .xnn x.toNat nn.toNat
  | .ldReg x y => .xyn x.toNat y.toNat 0
  | .orReg x y => .xyn x.toNat y.toNat 1
  | .andReg x y => .xyn x.toNat y.toNat 2
  | .xorReg x y => .xyn x.toNat y.toNat 3
  | .addReg x y => .xyn x.toNat y.toNat 4
  | .sub x y => .xyn x.toNat y.toNat 5
  | .shr x y => .xyn x.toNat y.toNat 6
  | .subn x y => .xyn x.toNat y.toNat 7
  | .shl x y => .xyn x.toNat y.toNat 0xE
  | .sneReg x y => .xyn x.toNat y.toNat 0
  | .ldI a => .nnn a.toNat
  | .jpV0 a => .nnn a.toNat
  | .rnd x nn => .xnn x.toNat nn.toNat
  | .drw x y n => .xyn x.toNat y.toNat n.toNat
  | .skp x => .x x.toNat
  | .sknp x => .x x.toNat
  | .readDt x => .x x.toNat
  | .waitKey x => .x x.toNat
  | .setDt x => .x x.toNat
  | .setSt x => .x x.toNat
  | .addI x => .x x.toNat
  | .ldF x => .x x.toNat
  | .ldB x => .x x.toNat
  | .storeRegs x => .x x.toNat
  | .loadRegs x => .x x.toNat

/-- An instruction is well formed when its operand numbers fit their fields. -/
def Instr.wellFormed (i : Instr) : Bool := i.rawFields.wellFormed

end Sys2Proof
end

