-- ==== Sys2Proof/Config.lean ====
section
/-! DEFINITION. The parameters of the block (rule R3). The fixed ones are numbers. The OPEN ones and the random
source have NO BODY: no proof can learn their value, so a statement holds for every setting. -/

namespace Sys2Proof

/-- `MEM_SIZE`: addresses 0..4095 (R3, R14). -/
def Config.memSize : Nat := 4096
/-- `PROG_BASE`: the load address and the `pc` after reset (R3, R211). -/
def Config.progBase : Nat := 0x200
/-- The largest image (R45). -/
def Config.maxImage : Nat := 3584
/-- `GLYPH_BASE` (R3, R15). -/
def Config.glyphBase : Nat := 0x050
/-- `GLYPH_BYTES`: bytes of one glyph (R3, R15). -/
def Config.glyphBytes : Nat := 5

/-- `LOAD_STORE_INCREMENT` (R3, D5): OPEN, the spec gives no default. Log entry 1. -/
opaque Config.loadStoreIncrement : Bool

/-- How many entries the call stack has beyond the first. Log entry 2. -/
opaque Config.extraNesting : Nat

/-- `STACK_CAPACITY` (R3, R16, D6): OPEN, at least 1. Log entry 2. -/
def Config.stackCapacity : Nat := Config.extraNesting + 1

/-- The default of `STACK_CAPACITY` in R3; nothing in the machine reads it. -/
def Config.defaultStackCapacity : Nat := 16

/-- `GLYPH_ROM` (R3, R15, D11): OPEN, 80 bytes. Log entry 10. -/
opaque Config.glyphRom : Vector Byte 80

/-- The default of `GLYPH_ROM` in R15 (general knowledge, not the source's); nothing in the machine reads it. -/
def Config.defaultGlyphRom : List Byte :=
  [0xF0, 0x90, 0x90, 0x90, 0xF0, 0x20, 0x60, 0x20, 0x20, 0x70, 0xF0, 0x10, 0xF0, 0x80, 0xF0, 0xF0, 0x10, 0xF0, 0x10, 0xF0] ++
  [0x90, 0x90, 0xF0, 0x10, 0x10, 0xF0, 0x80, 0xF0, 0x10, 0xF0, 0xF0, 0x80, 0xF0, 0x90, 0xF0, 0xF0, 0x10, 0x20, 0x40, 0x40] ++
  [0xF0, 0x90, 0xF0, 0x90, 0xF0, 0xF0, 0x90, 0xF0, 0x10, 0xF0, 0xF0, 0x90, 0xF0, 0x90, 0x90, 0xE0, 0x90, 0xE0, 0x90, 0xE0] ++
  [0xF0, 0x80, 0x80, 0x80, 0xF0, 0xE0, 0x90, 0x90, 0x90, 0xE0, 0xF0, 0x80, 0xF0, 0x80, 0xF0, 0xF0, 0x80, 0xF0, 0x80, 0x80]

/-- `draw8()` (R5, R140, D14): the k-th random byte the environment supplies, a FREE VALUE under no law.
Log entry 3. -/
opaque Config.draw8 : Nat → Byte

end Sys2Proof
end

