-- ==== Sys2Proof/Machine/State.lean ====
section
/-! DEFINITION. The state of the machine (rules R10 to R26), as plain data: every piece the spec names, then the
model's own record of the environment; the reasons a step can stop; and the state after reset (R25, R210). -/

namespace Sys2Proof.Machine

/-- Memory as (address, byte) pairs in one canonical form (`Memory.wf`): addresses strictly rising, none listed at the
byte an unlisted address reads as. -/
abbrev Memory := List Host.Cell

/-- `display[row][col]`: 32 rows of 64 cells, true for a lit cell (R18). -/
abbrev Display := Vector (Vector Bool 64) 32

/-- The six fatal conditions (R170). -/
inductive FatalKind where
  /-- A cycle began with `pc > 4094`. -/
  | fetchOutOfBounds
  /-- `CALL` with a full stack. -/
  | stackOverflow
  /-- `RET` with an empty stack. -/
  | stackUnderflow
  /-- A data access above address 4095. -/
  | memoryOutOfBounds
  /-- A glyph or key selector above 15. -/
  | selectorOutOfRange
  /-- A release event while `pressed_count` is 0. -/
  | keyCountNegative
  deriving DecidableEq, Repr

/-- The numeric codes 1 to 6 (R170). -/
def FatalKind.code : FatalKind → Nat
  | .fetchOutOfBounds => 1
  | .stackOverflow => 2
  | .stackUnderflow => 3
  | .memoryOutOfBounds => 4
  | .selectorOutOfRange => 5
  | .keyCountNegative => 6

/-- The fault record (R21). -/
structure FaultRecord where
  /-- Which fatal condition. -/
  kind : FatalKind
  /-- The instruction word being executed, where there is one. -/
  word : Option Word
  /-- The address it was fetched from, or the offending `pc` of a fetch, where there is one. -/
  addr : Option Word
  /-- The offending memory address, selector value or key number, where there is one. -/
  detail : Option Nat
  deriving DecidableEq, Repr

/-- `mode` with `wait_reg` and the fault record in the modes that give them a meaning (R20, R21). -/
inductive Mode where
  /-- The engine performs cycles. -/
  | running
  /-- The engine is suspended in a wait for a key; `waitReg` is the register that receives it. -/
  | awaitingKey (waitReg : Nibble)
  /-- A fatal condition has occurred. -/
  | halted (record : FaultRecord)
  deriving DecidableEq, Repr

/-- A transition the environment can call for (R195). -/
inductive Input where
  /-- `Step`: permission for the engine to take one cycle. -/
  | cycle
  /-- `Tick`: one event of the 60 Hz timer clock. -/
  | tick
  /-- `KeyDown(k)`. -/
  | keyDown (k : Nibble)
  /-- `KeyUp(k)`. -/
  | keyUp (k : Nibble)
  /-- `Snapshot`. -/
  | snapshot
  /-- `Load(image)`. -/
  | load (image : List Byte)
  /-- `Reset`. -/
  | reset
  deriving DecidableEq, Repr

/-- What the block emits (R195). -/
inductive Output where
  /-- The non-fatal report `Unrecognized(word, addr)` (R175). -/
  | unrecognized (word addr : Word)
  /-- The answer of a `Snapshot` (R191). -/
  | snapshot (cells : Display)
  deriving DecidableEq, Repr

/-- The model's own record of the environment; no piece of the spec's state. Log entries 3, 4 and 6. -/
structure Env where
  /-- The transitions the environment calls for next, in order; with none listed the engine has its turn. -/
  schedule : List Input
  /-- What the block has emitted, newest first. -/
  outputs : List Output
  /-- How many random bytes have been taken. -/
  draws : Nat
  deriving DecidableEq, Repr

/-- The state of the machine. -/
structure State where
  /-- `V0`..`VF` (R10); `VF` is the flag (R11). -/
  v : Vector Byte 16
  /-- `pc` (R12). -/
  pc : Word
  /-- `I` (R13). -/
  i : Word
  /-- Memory (R14). -/
  mem : Memory
  /-- The live entries of the call stack, newest first; `sp` is their number (R16). -/
  stack : List Word
  /-- `DT` (R17). -/
  dt : Byte
  /-- `ST` (R17). -/
  st : Byte
  /-- The display (R18). -/
  display : Display
  /-- `key[0..15]` (R19). -/
  key : Vector Bool 16
  /-- `pressed_count` (R19). -/
  pressedCount : Nat
  /-- `mode`, with `wait_reg` or the fault record (R20, R21). -/
  mode : Mode
  /-- No cycle and no load has happened since reset, so that `Load` is enabled (R24, R213). Log entry 5. -/
  loaderOpen : Bool
  /-- The model's record of the environment. -/
  env : Env
  deriving DecidableEq, Repr

/-- Why a step stops. -/
inductive Fault where
  /-- Raised by the step of a machine that is already `Halted` when the schedule holds no input: no agent has an
  enabled transition (R20, R171). SAFE: the hardware stands still there too. The record is the diagnostic (R21).
  Log entry 5. -/
  | halted (record : FaultRecord)
  deriving DecidableEq, Repr

/-- Why a step has no meaning. -/
inductive Refusal where
  /-- Raised by `exec` for an instruction without a meaning; no arm raises it. SAFE. -/
  | notModelled (mnemonic : String)
  /-- Raised by `Load` after the first engine cycle or after a first `Load`: not an action the loader has there (R24,
  R213). SAFE. Log entry 5. -/
  | loaderClosed
  /-- Raised by `Load` of an image over 3584 bytes: the block is never started with one (R196, R212, U14). SAFE.
  Log entry 5. -/
  | imageTooLong
  deriving DecidableEq, Repr

/-- The state after reset (R25, R210). Every value is the spec's; `env` is the model's own (log entries 3, 4, 6). -/
def State.reset : State where
  v := Vector.replicate 16 0
  pc := 0x200
  i := 0
  mem := []
  stack := []
  dt := 0
  st := 0
  display := Vector.replicate 32 (Vector.replicate 64 false)
  key := Vector.replicate 16 false
  pressedCount := 0
  mode := .running
  loaderOpen := true
  env := ⟨[], [], 0⟩

end Sys2Proof.Machine
end

