-- ==== Sys2Proof/Machine/Ops.lean ====
section
/-! DEFINITION. The named operations over the state: the parameters the machine reads, registers, memory with its
bounds rule, the call stack, the display, the instruction fetch, and entering a fatal condition. -/

namespace Sys2Proof.Machine

/-- What an instruction or an event answers. -/
abbrev Result := Host.Outcome State Fault Refusal

/-! ### The parameters the machine reads (R3, R23) -/

/-- `LOAD_STORE_INCREMENT`. -/
def loadStoreIncrement : Bool := Config.loadStoreIncrement

/-- `STACK_CAPACITY`. -/
def stackCapacity : Nat := Config.stackCapacity

/-- `GLYPH_ROM`. -/
def glyphRom : Vector Byte 80 := Config.glyphRom

/-- The free byte of the k-th draw (R140). -/
def randomByte (k : Nat) : Byte := Config.draw8 k

/-! ### Named updates -/

/-- The state with all sixteen registers replaced. -/
def State.setRegs (s : State) (v : Vector Byte 16) : State := { s with v := v }
/-- `V[x] <- b` (R5, R10). -/
def State.setV (s : State) (x : Nibble) (b : Byte) : State := s.setRegs (s.v.set x.toNat b x.isLt)
/-- `pc <- a`. -/
def State.setPc (s : State) (a : Word) : State := { s with pc := a }
/-- `I <- a`. -/
def State.setI (s : State) (a : Word) : State := { s with i := a }
/-- The state with another memory. -/
def State.setMem (s : State) (m : Memory) : State := { s with mem := m }
/-- The state with another call stack. -/
def State.setStack (s : State) (l : List Word) : State := { s with stack := l }
/-- `DT <- b`. -/
def State.setDt (s : State) (b : Byte) : State := { s with dt := b }
/-- `ST <- b`. -/
def State.setSt (s : State) (b : Byte) : State := { s with st := b }
/-- The state with another display. -/
def State.setDisplay (s : State) (d : Display) : State := { s with display := d }
/-- `key[k] <- b`. -/
def State.setKey (s : State) (k : Nibble) (b : Bool) : State := { s with key := s.key.set k.toNat b k.isLt }
/-- `pressed_count <- n`. -/
def State.setPressedCount (s : State) (n : Nat) : State := { s with pressedCount := n }
/-- `mode <- m`. -/
def State.setMode (s : State) (m : Mode) : State := { s with mode := m }
/-- From now on `Load` is not enabled (R24). -/
def State.closeLoader (s : State) : State := { s with loaderOpen := false }
/-- The state with another record of the environment. -/
def State.setEnv (s : State) (e : Env) : State := { s with env := e }
/-- The state with another schedule of inputs. -/
def State.setSchedule (s : State) (l : List Input) : State := s.setEnv { s.env with schedule := l }
/-- The block emits `o`. -/
def State.emit (s : State) (o : Output) : State := s.setEnv { s.env with outputs := o :: s.env.outputs }
/-- One more random byte has been taken. -/
def State.countDraw (s : State) : State := s.setEnv { s.env with draws := s.env.draws + 1 }

/-! ### Reading registers, keys and the stack -/

/-- `V[x]` (R5, R10). -/
def State.getV (s : State) (x : Nibble) : Byte := s.v[x.toNat]'x.isLt

/-- `key[k]` (R19). -/
def State.getKey (s : State) (k : Nibble) : Bool := s.key[k.toNat]'k.isLt

/-- `sp`: the number of live stack entries (R16). -/
def State.sp (s : State) : Nat := s.stack.length

/-- `stack[j]` for a live entry, `j < sp`, counted from the oldest (R16). -/
def State.stackEntry (s : State) (j : Nat) : Option Word := s.stack.reverse[j]?

/-- `wait_reg`, where it has a meaning (R20). -/
def State.waitReg (s : State) : Option Nibble :=
  match s.mode with
  | .awaitingKey x => some x
  | _ => none

/-- The fault record, where there is one (R21). -/
def State.faultRecord (s : State) : Option FaultRecord :=
  match s.mode with
  | .halted r => some r
  | _ => none

/-! ### Memory (R14, R15, R40 to R44) -/

/-- What an address reads as while nothing has been written there: the reset contents, `GLYPH_ROM` at 0x050..0x09F and
zero elsewhere (R25). -/
def unlistedByte (a : Nat) : Byte :=
  if h : Config.glyphBase ≤ a ∧ a < Config.glyphBase + 80 then glyphRom[a - Config.glyphBase]'(by omega) else 0

/-- The byte of memory at an address. -/
def readMem : Memory → Nat → Byte
  | [], a => unlistedByte a
  | (b, v) :: rest, a => if a = b then v else readMem rest a

/-- The list without the entries of an address: it reads there as if nothing had been written. -/
def eraseCell (m : Memory) (a : Nat) : Memory := m.filter fun c => c.1 != a

/-- The list with an entry put in its place by address. -/
def insertCell : Memory → Nat → Byte → Memory
  | [], a, v => [(a, v)]
  | (b, w) :: rest, a, v => if a < b then (a, v) :: (b, w) :: rest else (b, w) :: insertCell rest a v

/-- `memory[a] <- v`, keeping the canonical form: no entry where the byte is what an unlisted address reads as. -/
def writeMem (m : Memory) (a : Nat) (v : Byte) : Memory :=
  if v = unlistedByte a then eraseCell m a else insertCell (eraseCell m a) a v

/-- `memory[a + j] <- bytes[j]` in ascending order (R41, R44). -/
def writeBytes : Memory → Nat → List Byte → Memory
  | m, _, [] => m
  | m, a, b :: rest => writeBytes (writeMem m a b) (a + 1) rest

/-- The canonical form: addresses strictly rising and inside the address space, no entry equal to what an unlisted
address reads as. -/
abbrev Memory.wf (m : Memory) : Prop :=
  m.Pairwise (fun c d => c.1 < d.1) ∧ ∀ c ∈ m, c.1 < Config.memSize ∧ c.2 ≠ unlistedByte c.1

/-- The byte of the machine's memory at an address. -/
def State.readByte (s : State) (a : Nat) : Byte := readMem s.mem a

/-! ### Entering a fatal condition (R171) and raising one from an instruction -/

/-- The only trap entry: `mode <- Halted` with the fault record, and nothing else is written (R171). There is no
return from it (R173); `resetEvent` is the only way out. -/
def enterFatal (kind : FatalKind) (word addr : Option Word) (detail : Option Nat) (s : State) : Result :=
  .next (s.setMode (.halted ⟨kind, word, addr, detail⟩))

/-- `raise` in the execute phase of instruction `i`: the record names its word and the address it was fetched from,
which is `pc - 2` there (R12, R21, R171). -/
def raise (kind : FatalKind) (i : Instr) (detail : Option Nat) (s : State) : Result :=
  enterFatal kind (some (encode i)) (some (s.pc - 2)) detail s

/-! ### The call stack (R16, R81, R82) -/

/-- Push the return address `pc` and go to `target`, in a stack of `capacity` entries (R16, R81). -/
def callWithin (capacity : Nat) (i : Instr) (target : Word) (s : State) : Result :=
  if capacity ≤ s.sp then raise .stackOverflow i none s
  else .next ((s.setStack (s.pc :: s.stack)).setPc target)

/-- Pop the newest entry into `pc` (R16, R82). -/
def popInto (i : Instr) (s : State) : Result :=
  match s.stack with
  | [] => raise .stackUnderflow i none s
  | a :: rest => .next ((s.setStack rest).setPc a)

/-! ### The display (R18, R190) -/

/-- The cell `display[row][col]`; false outside the grid. -/
def cellAt (d : Display) (row col : Nat) : Bool :=
  if h : row < 32 ∧ col < 64 then (d[row]'h.1)[col]'h.2 else false

/-- `display[row][col] <- display[row][col] XOR 1`; outside the grid nothing changes. -/
def toggleCell (d : Display) (row col : Nat) : Display :=
  if h : row < 32 ∧ col < 64 then
    d.set row ((d[row]'h.1).set col (!(d[row]'h.1)[col]'h.2) h.2) h.1
  else d

/-- All 2048 cells off (R142). -/
def blankDisplay : Display := Vector.replicate 32 (Vector.replicate 64 false)

/-- One sprite pixel, column `c` of a row byte `b` at display row `row`, start column `x0`: bit `7 - c` decides, a
pixel outside the grid is skipped, a cell that goes from on to off is a collision (R141, R143). -/
def drawPixel (x0 row : Nat) (b : Byte) (acc : Display × Bool) (c : Nat) : Display × Bool :=
  if b.getLsbD (7 - c) = true ∧ x0 + c ≤ 63 ∧ row ≤ 31 then
    (toggleCell acc.1 row (x0 + c), acc.2 || cellAt acc.1 row (x0 + c))
  else acc

/-- One sprite row: its eight pixels, left to right (R141). -/
def drawRow (x0 row : Nat) (b : Byte) (acc : Display × Bool) : Display × Bool :=
  (List.range 8).foldl (drawPixel x0 row b) acc

/-- The sprite rows `0 .. n-1` at start column `x0` and start row `y0`, row `r` from the byte at `base + r`: the new
display and whether a collision was seen (R141). -/
def drawSprite (m : Memory) (base x0 y0 n : Nat) (d : Display) : Display × Bool :=
  (List.range n).foldl (fun acc r => drawRow x0 (y0 + r) (readMem m (base + r)) acc) (d, false)

/-! ### The instruction fetch (R42, R64) -/

/-- `{memory[pc], memory[pc+1]}` (R42). -/
def fetchWord (s : State) : Word := wordOf (s.readByte s.pc.toNat) (s.readByte (s.pc.toNat + 1))

/-- The state in which an instruction executes: `pc <- a + 2` (R12, R64); the first cycle ends the loader's turn (R24). -/
def afterFetch (s : State) : State := (s.setPc (s.pc + 2)).closeLoader

end Sys2Proof.Machine
end

