-- ==== Sys2Proof/Machine/Operands.lean ====
section
/-! DEFINITION. Operand forms: immediates (R63), the address `I + offset` with its bounds check (R41, R53, R54), the
key or glyph selector (R125, R150), the skip (R88), and the block of registers of Fx55 and Fx65 (R122, R123). -/

namespace Sys2Proof.Machine

/-- `zext_16(nnn)` (R63). -/
def zextAddr (nnn : Addr12) : Word := nnn.setWidth 16

/-- `zext_16` of a byte (R63, R87). -/
def zextByte (b : Byte) : Word := b.setWidth 16

/-- A key number as a byte: `k` in 0..15, zero-extended (R155). -/
def zextNibble (k : Nibble) : Byte := k.setWidth 8

/-- The unreduced address `I` (R53). -/
def State.base (s : State) : Nat := s.i.toNat

/-- An access of `n` bytes at `I`: if its highest address is above 4095 the instruction is fatal and does nothing
else, otherwise it answers `ok`. An access of no bytes has no address to check (R41, R54, R141). -/
def checkedAccess (i : Instr) (n : Nat) (s : State) (ok : State) : Result :=
  if 0 < n ∧ 4095 < s.base + n - 1 then raise .memoryOutOfBounds i (some (s.base + n - 1)) s
  else .next ok

/-- `V[x]` as a selector: above 15 the instruction is fatal, otherwise it answers `ok` of the number (R125, R150, R151). -/
def checkedSelector (i : Instr) (x : Nibble) (s : State) (ok : Nibble → State) : Result :=
  if 15 < (s.getV x).toNat then raise .selectorOutOfRange i (some (s.getV x).toNat) s
  else .next (ok ((s.getV x).setWidth 4))

/-- A skip adds 2 to `pc` a second time when its condition holds (R88). -/
def skipIf (c : Bool) (s : State) : State := if c then s.setPc (s.pc + 2) else s

/-- The bytes `V0`..`Vx`, in ascending order (R122). -/
def registerBlock (x : Nibble) (s : State) : List Byte := s.v.toList.take (x.toNat + 1)

/-- `V[j] <- memory[I + j]` for `j` in 0..x (R123). -/
def loadBlock (x : Nibble) (s : State) : State :=
  s.setRegs (Vector.ofFn fun j : Fin 16 => if j.val ≤ x.toNat then s.readByte (s.base + j.val) else s.v[j])

/-- `I <- I + x + 1` in the auto-increment mode, nothing otherwise (R122, R123). -/
def advanceIndex (increment : Bool) (x : Nibble) (s : State) : State :=
  s.setI (if increment then s.i + BitVec.ofNat 16 (x.toNat + 1) else s.i)

end Sys2Proof.Machine
end

