-- ==== Sys2Proof/Machine/Flags.lean ====
section
/-! DEFINITION. The flag computations (R11, R100, R107 to R111, R121): each is a truth value, delivered in `VF` as 0 or
1 by `setFlag`, which an instruction applies after it has written its result. -/

namespace Sys2Proof.Machine

/-- The unsigned sum of two registers exceeds 255 (R107). -/
def carryFlag (a b : Byte) : Bool := decide (255 < a.toNat + b.toNat)

/-- No borrow: minuend at least subtrahend (R108, R110). -/
def notBorrowFlag (minuend subtrahend : Byte) : Bool := decide (subtrahend.toNat ≤ minuend.toNat)

/-- The bit a right shift moves out: bit 0 (R109). -/
def shiftOutRight (b : Byte) : Bool := b.getLsbD 0

/-- The bit a left shift moves out: bit 7 (R111). -/
def shiftOutLeft (b : Byte) : Bool := b.getLsbD 7

/-- The unreduced sum `I + V[x]` is above 0xFFF (R121). -/
def indexOverflowFlag (i : Word) (b : Byte) : Bool := decide (0x0FFF < i.toNat + b.toNat)

/-- A flag as the byte 0 or 1 (R11). -/
def flagByte (c : Bool) : Byte := if c then 1 else 0

/-- `VF <- flag`, the last write of a flag-writing instruction (R100). -/
def State.setFlag (s : State) (c : Bool) : State := s.setV 0xF (flagByte c)

end Sys2Proof.Machine
end

