-- ==== Sys2Proof/Machine/Alu.lean ====
section
/-! DEFINITION. Immediate and register-to-register instructions (41_register_alu.md, R100 to R112): operands are read
first, the result is written, the flag is written last (R100). -/

namespace Sys2Proof.Machine

/-- `LD Vx, nn` (R101). -/
def execLdImm (x : Nibble) (nn : Byte) (s : State) : Result := .next (s.setV x nn)

/-- `ADD Vx, nn`: modulo 256, no flag (R102). -/
def execAddImm (x : Nibble) (nn : Byte) (s : State) : Result := .next (s.setV x (s.getV x + nn))

/-- `LD Vx, Vy` (R103). -/
def execLdReg (x y : Nibble) (s : State) : Result := .next (s.setV x (s.getV y))

/-- `OR Vx, Vy`: no flag (R104). -/
def execOr (x y : Nibble) (s : State) : Result := .next (s.setV x (s.getV x ||| s.getV y))

/-- `AND Vx, Vy`: no flag (R105). -/
def execAnd (x y : Nibble) (s : State) : Result := .next (s.setV x (s.getV x &&& s.getV y))

/-- `XOR Vx, Vy`: no flag (R106). -/
def execXor (x y : Nibble) (s : State) : Result := .next (s.setV x (s.getV x ^^^ s.getV y))

/-- Write the result to `V[x]`, then the flag to `VF` (R100). -/
def State.setVFlag (s : State) (x : Nibble) (b : Byte) (c : Bool) : State := (s.setV x b).setFlag c

/-- `ADD Vx, Vy` (R107). -/
def execAddReg (x y : Nibble) (s : State) : Result :=
  .next (s.setVFlag x (s.getV x + s.getV y) (carryFlag (s.getV x) (s.getV y)))

/-- `SUB Vx, Vy` (R108). -/
def execSub (x y : Nibble) (s : State) : Result :=
  .next (s.setVFlag x (s.getV x - s.getV y) (notBorrowFlag (s.getV x) (s.getV y)))

/-- `SHR Vx, Vy`: the source is `V[y]` (R109). -/
def execShr (x y : Nibble) (s : State) : Result :=
  .next (s.setVFlag x (s.getV y >>> 1) (shiftOutRight (s.getV y)))

/-- `SUBN Vx, Vy`: `V[y]` is the minuend (R110). -/
def execSubn (x y : Nibble) (s : State) : Result :=
  .next (s.setVFlag x (s.getV y - s.getV x) (notBorrowFlag (s.getV y) (s.getV x)))

/-- `SHL Vx, Vy`: the source is `V[y]` (R111). -/
def execShl (x y : Nibble) (s : State) : Result :=
  .next (s.setVFlag x (s.getV y <<< 1) (shiftOutLeft (s.getV y)))

end Sys2Proof.Machine
end

