-- ==== Sys2Proof/Machine/Control.lean ====
section
/-! DEFINITION. Control flow (40_control_flow.md, R80 to R89). An instruction executes in a state whose `pc` is already
its own address plus 2 (R12, R26). -/

namespace Sys2Proof.Machine

/-- `JP nnn` (R80). -/
def execJp (nnn : Addr12) (s : State) : Result := .next (s.setPc (zextAddr nnn))

/-- `CALL nnn` (R81). -/
def execCall (nnn : Addr12) (s : State) : Result := callWithin stackCapacity (.call nnn) (zextAddr nnn) s

/-- `RET` (R82). -/
def execRet (s : State) : Result := popInto .ret s

/-- `SE Vx, nn` (R83). -/
def execSeImm (x : Nibble) (nn : Byte) (s : State) : Result := .next (skipIf (decide (s.getV x = nn)) s)

/-- `SNE Vx, nn` (R84). -/
def execSneImm (x : Nibble) (nn : Byte) (s : State) : Result := .next (skipIf (decide (s.getV x ≠ nn)) s)

/-- `SE Vx, Vy` (R85). -/
def execSeReg (x y : Nibble) (s : State) : Result := .next (skipIf (decide (s.getV x = s.getV y)) s)

/-- `SNE Vx, Vy` (R86). -/
def execSneReg (x y : Nibble) (s : State) : Result := .next (skipIf (decide (s.getV x ≠ s.getV y)) s)

/-- `JP V0, nnn`: the sum is at most 0x10FE and is not reduced (R87). -/
def execJpV0 (nnn : Addr12) (s : State) : Result := .next (s.setPc (zextAddr nnn + zextByte (s.getV 0)))

end Sys2Proof.Machine
end

