-- ==== Sys2Proof/Machine/Index.lean ====
section
/-! DEFINITION. Index register and memory instructions (42_index_memory.md, R120 to R125). -/

namespace Sys2Proof.Machine

/-- `LD I, nnn`: no flag (R120). -/
def execLdI (nnn : Addr12) (s : State) : Result := .next (s.setI (zextAddr nnn))

/-- `ADD I, Vx`: the sum modulo 2^16, the flag from the unreduced sum (R121). -/
def execAddI (x : Nibble) (s : State) : Result :=
  .next ((s.setI (s.i + zextByte (s.getV x))).setFlag (indexOverflowFlag s.i (s.getV x)))

/-- `LD [I], Vx` in a given increment mode (R122). -/
def storeBlockWith (increment : Bool) (x : Nibble) (s : State) : Result :=
  checkedAccess (.storeRegs x) (x.toNat + 1) s
    (advanceIndex increment x (s.setMem (writeBytes s.mem s.base (registerBlock x s))))

/-- `LD [I], Vx` (R122). -/
def execStoreRegs (x : Nibble) (s : State) : Result := storeBlockWith loadStoreIncrement x s

/-- `LD Vx, [I]` in a given increment mode (R123). -/
def loadBlockWith (increment : Bool) (x : Nibble) (s : State) : Result :=
  checkedAccess (.loadRegs x) (x.toNat + 1) s (advanceIndex increment x (loadBlock x s))

/-- `LD Vx, [I]` (R123). -/
def execLoadRegs (x : Nibble) (s : State) : Result := loadBlockWith loadStoreIncrement x s

/-- Hundreds, tens and units of a byte, each a whole byte 0..9 (R124). -/
def bcdDigits (b : Byte) : List Byte := [b / 100, b / 10 % 10, b % 10]

/-- `LD B, Vx` (R124). -/
def execLdB (x : Nibble) (s : State) : Result :=
  checkedAccess (.ldB x) 3 s (s.setMem (writeBytes s.mem s.base (bcdDigits (s.getV x))))

/-- The address of the glyph of hex digit `d`: 0x050 + 5 * d (R15, R125). -/
def glyphAddress (d : Nibble) : Word := BitVec.ofNat 16 (Config.glyphBase + Config.glyphBytes * d.toNat)

/-- `LD F, Vx` (R125). -/
def execLdF (x : Nibble) (s : State) : Result := checkedSelector (.ldF x) x s fun d => s.setI (glyphAddress d)

end Sys2Proof.Machine
end

