-- ==== Sys2Proof/Machine/Keys.lean ====
section
/-! DEFINITION. Key queries, timer accesses and the wait for a key (44_keys_timers.md, R150 to R155). -/

namespace Sys2Proof.Machine

/-- `SKP Vx` (R150). -/
def execSkp (x : Nibble) (s : State) : Result := checkedSelector (.skp x) x s fun k => skipIf (s.getKey k) s

/-- `SKNP Vx` (R151). -/
def execSknp (x : Nibble) (s : State) : Result := checkedSelector (.sknp x) x s fun k => skipIf (!s.getKey k) s

/-- `LD Vx, DT` (R152). -/
def execReadDt (x : Nibble) (s : State) : Result := .next (s.setV x s.dt)

/-- `LD DT, Vx` (R153). -/
def execSetDt (x : Nibble) (s : State) : Result := .next (s.setDt (s.getV x))

/-- `LD ST, Vx` (R154). -/
def execSetSt (x : Nibble) (s : State) : Result := .next (s.setSt (s.getV x))

/-- `LD Vx, K`, the engine's half: the engine is suspended, `pc` stays at its advanced value (R155). The other half is
`keyDown`. -/
def execWaitKey (x : Nibble) (s : State) : Result := .next (s.setMode (.awaitingKey x))

end Sys2Proof.Machine
end

