-- ==== Sys2Proof/Machine/Screen.lean ====
section
/-! DEFINITION. Random byte, sprite draw and clear display (43_random_display.md, R140 to R143). -/

namespace Sys2Proof.Machine

/-- `RND Vx, nn` with the byte `r` the environment supplies (R140). -/
def rndWith (r : Byte) (x : Nibble) (nn : Byte) (s : State) : State := s.setV x (r &&& nn)

/-- `RND Vx, nn`: the byte is the next free value (R140). -/
def execRnd (x : Nibble) (nn : Byte) (s : State) : Result :=
  .next (rndWith (randomByte s.env.draws) x nn s.countDraw)

/-- The start column of a draw, `V[x] mod 64` (R141). -/
def startColumn (x : Nibble) (s : State) : Nat := (s.getV x).toNat % 64

/-- The start row of a draw, `V[y] mod 32` (R141, 90_conflicts.md C1). -/
def startRow (y : Nibble) (s : State) : Nat := (s.getV y).toNat % 32

/-- `DRW Vx, Vy, n`: all `n` rows are bounds-checked, `VF` is written last (R141). -/
def execDrw (x y n : Nibble) (s : State) : Result :=
  let drawn := drawSprite s.mem s.base (startColumn x s) (startRow y s) n.toNat s.display
  checkedAccess (.drw x y n) n.toNat s ((s.setDisplay drawn.1).setFlag drawn.2)

/-- `CLS`: no flag (R142). -/
def execCls (s : State) : Result := .next (s.setDisplay blankDisplay)

end Sys2Proof.Machine
end

