-- ==== Sys2Proof/Machine/Events.lean ====
section
/-! DEFINITION. The transitions of the agents that are not the engine (R24): the timer clock (R181), the key-event
source (R185, R186), the renderer (R191), the loader (R212) and reset (R210, R214). Each is written for a mode in which
it is enabled; `Machine/Cycle.lean` asks whether it is. -/

namespace Sys2Proof.Machine

/-- One count of a down-counter, which stops at zero (R180, R181). -/
def countdown (b : Byte) : Byte := if b = 0 then 0 else b - 1

/-- `Tick`: both counters in one transition (R181). -/
def tick (s : State) : State := (s.setDt (countdown s.dt)).setSt (countdown s.st)

/-- A pending wait for a key is ended by this press: the register of the wait receives the key number (R155, R185). -/
def endWait (k : Nibble) (s : State) : State :=
  match s.mode with
  | .awaitingKey x => (s.setV x (zextNibble k)).setMode .running
  | _ => s

/-- `KeyDown(k)` (R185). -/
def keyDown (k : Nibble) (s : State) : State := endWait k ((s.setPressedCount (s.pressedCount + 1)).setKey k true)

/-- `KeyUp(k)`; at `pressed_count = 0` it is the fatal condition `KeyCountNegative`, with no word and no address
(R21, R186). -/
def keyUp (k : Nibble) (s : State) : Result :=
  if s.pressedCount = 0 then enterFatal .keyCountNegative none none (some k.toNat) s
  else .next ((s.setPressedCount (s.pressedCount - 1)).setKey k false)

/-- `Snapshot`: a copy of the display goes out, nothing changes (R191). -/
def snapshot (s : State) : State := s.emit (.snapshot s.display)

/-- `Load(image)`: bytes 0x200 upward, nothing else; only before the first cycle, once, at most 3584 bytes (R24, R196,
R212, R213). -/
def loadImage (image : List Byte) (s : State) : Result :=
  if s.loaderOpen = false then .refused .loaderClosed
  else if Config.maxImage < image.length then .refused .imageTooLong
  else .next ((s.setMem (writeBytes s.mem Config.progBase image)).closeLoader)

/-- `Reset`: every piece of the machine's state at its reset value; the record of the environment goes on (R210, R214). -/
def resetEvent (s : State) : State := State.reset.setEnv s.env

end Sys2Proof.Machine
end

