-- ==== Sys2Proof/Machine/Cycle.lean ====
section
/-! DEFINITION. One engine cycle (R64) and one input of the environment (R24, R48): which transition is enabled in
which mode, and what stands still (R6, R20, R171). -/

namespace Sys2Proof.Machine

/-- One cycle of a running engine: the fetch check, the fetch and the `pc` advance, then the instruction, or the
report of an unrecognized word (R64, R66, R175). -/
def engineCycle (s : State) : Result :=
  if 4094 < s.pc.toNat then enterFatal .fetchOutOfBounds none (some s.pc) (some s.pc.toNat) s
  else
    match decodeWord (fetchWord s) with
    | some i => exec i (afterFetch s)
    | none => .next ((afterFetch s).emit (.unrecognized (fetchWord s) s.pc))

/-- The engine's turn when the environment calls for nothing: a cycle in `Running`; in `AwaitingKey` the machine waits
unchanged, which is no fault (R155, R187); in `Halted` nothing is enabled and the run stops (R20, R171). -/
def engineTurn (s : State) : Result :=
  match s.mode with
  | .running => engineCycle s
  | .awaitingKey _ => .next s
  | .halted r => .fault (.halted r)

/-- One input of the environment. Where its transition is not enabled nothing happens (R24, R171): the engine's cycle
needs `Running`, tick, key events and load need a machine that is not `Halted`, snapshot and reset are always
enabled. -/
def takeInput (e : Input) (s : State) : Result :=
  match e, s.mode with
  | .reset, _ => .next (resetEvent s)
  | .snapshot, _ => .next (snapshot s)
  | _, .halted _ => .next s
  | .cycle, .running => engineCycle s
  | .cycle, .awaitingKey _ => .next s
  | .tick, _ => .next (tick s)
  | .keyDown k, _ => .next (keyDown k s)
  | .keyUp k, _ => keyUp k s
  | .load image, _ => loadImage image s

/-- An instruction word stored where the engine fetches next, with the engine ready to fetch it: running, nothing
scheduled before it, and `pc` moved to 0x200 only if no word can be fetched where it stands. -/
def placeWord (s : State) (w : Word) : State :=
  let at_ : Word := if 4094 < s.pc.toNat then BitVec.ofNat 16 Config.progBase else s.pc
  (((s.setPc at_).setMem (writeBytes s.mem at_.toNat (wordBytes w))).setMode .running).setSchedule []

end Sys2Proof.Machine
end

