-- ==== Sys2Proof/Machine/Step.lean ====
section
/-! DEFINITION. One step of the machine: the next input of the environment's schedule, or the engine's turn when none is
listed (R24, R48). -/

namespace Sys2Proof.Machine

/-- One transition of the whole state. -/
def step (s : State) : Host.Outcome State Fault Refusal :=
  match s.env.schedule with
  | [] => engineTurn s
  | e :: rest => takeInput e (s.setSchedule rest)

/-- The state with the instruction whose bits are `w`, in the opcode table's numbering, stored where `step` fetches its
next instruction. -/
def State.withFetchWord (s : State) (nbits w : Nat) : State := placeWord s (tableWord nbits w)

end Sys2Proof.Machine
end

