-- ==== Sys2Proof/Safety.lean ====
section
/-! DEFINITION. The words the claims are stated in: the pieces of the state and what is left unchanged, which
pieces and registers the spec lets an instruction write, the invariant, coming to rest (R215), and the sprite's
cells (R141, R143). -/

namespace Sys2Proof.Machine

/-! ### Frames -/

/-- The pieces of the state. -/
inductive Part where
  | regs
  | pc
  | index
  | memory
  | stack
  | delayTimer
  | soundTimer
  | display
  | keys
  | mode
  | loader
  | env
  deriving DecidableEq, Repr

/-- A piece is the same in both states; memory is compared byte by byte. -/
def Part.same (s t : State) : Part → Prop
  | .regs => t.v = s.v
  | .pc => t.pc = s.pc
  | .index => t.i = s.i
  | .memory => ∀ a, t.readByte a = s.readByte a
  | .stack => t.stack = s.stack
  | .delayTimer => t.dt = s.dt
  | .soundTimer => t.st = s.st
  | .display => t.display = s.display
  | .keys => t.key = s.key ∧ t.pressedCount = s.pressedCount
  | .mode => t.mode = s.mode
  | .loader => t.loaderOpen = s.loaderOpen
  | .env => t.env = s.env

/-- Every piece of the state but the listed ones is the same in both states. -/
def KeepsAllBut (changed : List Part) (s t : State) : Prop := ∀ p, p ∉ changed → p.same s t

/-- Every general register but the listed ones is the same in both states. -/
def RegsKeptBut (changed : List Nibble) (s t : State) : Prop := ∀ y, y ∉ changed → t.getV y = s.getV y

/-- Every byte of memory outside the `n` bytes at address `a` is the same in both states. -/
def MemoryKeptOutside (a n : Nat) (s t : State) : Prop := ∀ b, b < a ∨ a + n ≤ b → t.readByte b = s.readByte b

/-- The pieces of the state an instruction may write when it does not meet a fatal condition (R11, R13, R16 to R20,
R26, R40). -/
def writableParts : Instr → List Part
  | .cls => [.display]
  | .ret => [.pc, .stack]
  | .jp _ => [.pc]
  | .call _ => [.pc, .stack]
  | .seImm _ _ => [.pc]
  | .sneImm _ _ => [.pc]
  | .seReg _ _ => [.pc]
  | .ldImm _ _ => [.regs]
  | .addImm _ _ => [.regs]
  | .ldReg _ _ => [.regs]
  | .orReg _ _ => [.regs]
  | .andReg _ _ => [.regs]
  | .xorReg _ _ => [.regs]
  | .addReg _ _ => [.regs]
  | .sub _ _ => [.regs]
  | .shr _ _ => [.regs]
  | .subn _ _ => [.regs]
  | .shl _ _ => [.regs]
  | .sneReg _ _ => [.pc]
  | .ldI _ => [.index]
  | .jpV0 _ => [.pc]
  | .rnd _ _ => [.regs, .env]
  | .drw _ _ _ => [.regs, .display]
  | .skp _ => [.pc]
  | .sknp _ => [.pc]
  | .readDt _ => [.regs]
  | .waitKey _ => [.mode]
  | .setDt _ => [.delayTimer]
  | .setSt _ => [.soundTimer]
  | .addI _ => [.regs, .index]
  | .ldF _ => [.index]
  | .ldB _ => [.memory]
  | .storeRegs _ => [.memory, .index]
  | .loadRegs _ => [.regs, .index]

/-- The instructions that write `VF` as a flag (R11). -/
def writesFlag : Instr → Bool
  | .addReg _ _ => true
  | .sub _ _ => true
  | .shr _ _ => true
  | .subn _ _ => true
  | .shl _ _ => true
  | .addI _ => true
  | .drw _ _ _ => true
  | _ => false

/-- The registers an instruction names as its destination: `Vx`, or `V0`..`Vx` for the block load. -/
def namedDestination : Instr → List Nibble
  | .ldImm x _ => [x]
  | .addImm x _ => [x]
  | .ldReg x _ => [x]
  | .orReg x _ => [x]
  | .andReg x _ => [x]
  | .xorReg x _ => [x]
  | .addReg x _ => [x]
  | .sub x _ => [x]
  | .shr x _ => [x]
  | .subn x _ => [x]
  | .shl x _ => [x]
  | .rnd x _ => [x]
  | .readDt x => [x]
  | .loadRegs x => (List.range (x.toNat + 1)).map (BitVec.ofNat 4)
  | _ => []

/-- The registers an instruction may write: its named destination, and `VF` where it writes the flag (R11). -/
def writableRegs (i : Instr) : List Nibble := namedDestination i ++ (if writesFlag i then [0xF] else [])

/-- How many bytes from `I` upward an instruction may store to (R122, R124). -/
def storedCount : Instr → Nat
  | .ldB _ => 3
  | .storeRegs x => x.toNat + 1
  | _ => 0

/-! ### Modes -/

/-- A fatal condition has occurred. -/
def Halted (s : State) : Prop := ∃ r, s.mode = .halted r

/-- The state `t` is `s` after a fatal condition with this record: nothing but `mode` has changed (R171). -/
def HaltsWith (s t : State) (kind : FatalKind) (word addr : Option Word) (detail : Option Nat) : Prop :=
  t.mode = .halted ⟨kind, word, addr, detail⟩ ∧ KeepsAllBut [.mode] s t

/-- The next step of `s` is an engine cycle, taken from `u`: the engine runs and either nothing is scheduled, so that it
has its turn, or the environment calls for a `Step` (R195), which is taken from the schedule first. -/
def CycleNext (s u : State) : Prop :=
  s.mode = .running ∧
    (s.env.schedule = [] ∧ u = s ∨ ∃ rest, s.env.schedule = .cycle :: rest ∧ u = s.setSchedule rest)

/-! ### The invariant -/

/-- Memory is in canonical form, the stack holds at most `STACK_CAPACITY` entries (R16), every return address is at
most 0x1000 and `pc` is at most 0x10FE (R12, R26). -/
def State.Inv (s : State) : Prop :=
  s.mem.wf ∧ s.sp ≤ stackCapacity ∧ (∀ a ∈ s.stack, a.toNat ≤ 0x1000) ∧ s.pc.toNat ≤ 0x10FE

/-! ### Coming to rest and sprites -/

/-- A program has come to rest at `pc`: the engine runs and the word there is a jump to itself (R215). -/
def AtRest (s : State) : Prop :=
  s.mode = .running ∧ s.pc.toNat ≤ 4094 ∧ ∃ nnn, decodeWord (fetchWord s) = some (.jp nnn) ∧ zextAddr nnn = s.pc

/-- The sprite of `DRW Vx, Vy, n` has a set bit for the display cell (row, col): row `r` of the sprite is the byte at
`I + r`, drawn at row `V[y] mod 32 + r`, and its bit `7 - c` is drawn at column `V[x] mod 64 + c` (R141, R143). -/
def spriteCovers (x y n : Nibble) (s : State) (row col : Nat) : Bool :=
  decide (startRow y s ≤ row ∧ row - startRow y s < n.toNat ∧ startColumn x s ≤ col ∧ col - startColumn x s < 8) &&
    (s.readByte (s.base + (row - startRow y s))).getLsbD (7 - (col - startColumn x s))

end Sys2Proof.Machine
end

