-- ==== Sys2Proof/Certificates/Slice0/Obligations.lean ====
section
/-! DEFINITION. The statements about the machine, each from the rules its docstring names. `KeepsAllBut`, `RegsKeptBut`,
`MemoryKeptOutside` and `HaltsWith` are in Safety.lean. An instruction executes in a state whose `pc` is already its
own address plus 2 (R12). -/

open Sys2Proof Sys2Proof.Machine

/-! ### Encoding -/

/-- R42, R60, R62, R65: every instruction is well formed by its types, and its word and its two bytes decode to it
with every operand, leaving the bytes that follow. -/
def Obligations.DecodeOfEncodeIsTheInstruction : Prop :=
  ∀ (i : Instr) (rest : List Byte),
    i.wellFormed = true ∧ decodeWord (encode i) = some i ∧ decode (encodeBytes i ++ rest) = .ok (i, rest)

/-- R61, R65: a word that decodes is the word of its instruction and lies in that instruction's row of mask and match. -/
def Obligations.EncodeOfDecodeIsTheWord : Prop :=
  ∀ (w : Word) (i : Instr), decodeWord w = some i → encode i = w ∧ (opcodeRow i).selects w = true

/-- R65, R66, R69: a word decodes exactly when a row of the opcode map selects it, there are 34 rows, and no word is
selected by two of them. -/
def Obligations.RecognizedWordsAreTheOpcodeRows : Prop :=
  opcodeRows.length = 34 ∧
    (∀ w, (decodeWord w).isSome = true ↔ ∃ r ∈ opcodeRows, r.selects w = true) ∧
    opcodeRows.Pairwise fun r q => ∀ w, ¬ (r.selects w = true ∧ q.selects w = true)

/-- Words the spec's examples write out: R80, R81, R82, R83, R85, R86, R101, R107, R109, R120, R141, R142, R150, R155. -/
def Obligations.SpecWordsDecodeAsWritten : Prop :=
  decodeWord 0x1234 = some (.jp 0x234) ∧ decodeWord 0x2300 = some (.call 0x300) ∧ decodeWord 0x00EE = some .ret ∧
    decodeWord 0x332A = some (.seImm 3 0x2A) ∧ decodeWord 0x5120 = some (.seReg 1 2) ∧
    decodeWord 0x9120 = some (.sneReg 1 2) ∧ decodeWord 0x6A2B = some (.ldImm 0xA 0x2B) ∧
    decodeWord 0x8124 = some (.addReg 1 2) ∧ decodeWord 0x8126 = some (.shr 1 2) ∧
    decodeWord 0xA2F0 = some (.ldI 0x2F0) ∧ decodeWord 0xD012 = some (.drw 0 1 2) ∧ decodeWord 0x00E0 = some .cls ∧
    decodeWord 0xE59E = some (.skp 5) ∧ decodeWord 0xF10A = some (.waitKey 1) ∧ decodeWord 0x5121 = none

/-! ### The engine cycle -/

/-- R12, R42, R64: the word at `pc` has the byte at the lower address as its high byte; when the engine has its turn, or
is given one by a scheduled `Step`, and that word decodes to `i`, the step is `exec i` in the state whose `pc` has
advanced by 2 and which is otherwise the same but for the loader's turn being over (log entry 5). -/
def Obligations.StepRunsTheDecodedInstruction : Prop :=
  ∀ (s : State) (i : Instr), s.mode = .running → s.pc.toNat ≤ 4094 → decodeWord (fetchWord s) = some i →
    (fetchWord s).toNat = 256 * (s.readByte s.pc.toNat).toNat + (s.readByte (s.pc.toNat + 1)).toNat ∧
      (s.env.schedule = [] → step s = exec i (afterFetch s)) ∧
      (∀ rest, s.env.schedule = .cycle :: rest → step s = exec i (afterFetch (s.setSchedule rest))) ∧
      (afterFetch s).pc = s.pc + 2 ∧ (afterFetch s).loaderOpen = false ∧ KeepsAllBut [.pc, .loader] s (afterFetch s)

/-- R12, R64, R170, R171 (the spec's decision D8): a cycle that begins with `pc` above 4094 is the fatal condition
`FetchOutOfBounds`, code 1, with `pc` unchanged, no word, and the offending `pc` as address and detail. The cycle is the
engine's turn or a scheduled `Step` (R195), taken from `u`. -/
def Obligations.FetchBeyondMemoryHalts : Prop :=
  ∀ s u : State, CycleNext s u → 4094 < s.pc.toNat →
    ∃ t, step s = .next t ∧ HaltsWith u t .fetchOutOfBounds none (some s.pc) (some s.pc.toNat) ∧
      FatalKind.fetchOutOfBounds.code = 1

/-- R66, R175 (the event's form is the spec's decision D20): a word that no row selects is reported with its address,
`pc` advances by 2, and nothing else changes but the loader's turn being over (log entry 5). The cycle is the engine's
turn or a scheduled `Step` (R195), taken from `u`. -/
def Obligations.UnrecognizedWordIsReportedAndSkipped : Prop :=
  ∀ s u : State, CycleNext s u → s.pc.toNat ≤ 4094 → (∀ r ∈ opcodeRows, r.selects (fetchWord s) = false) →
    ∃ t, step s = .next t ∧ t.pc = s.pc + 2 ∧ t.loaderOpen = false ∧
      t.env = { u.env with outputs := .unrecognized (fetchWord s) s.pc :: s.env.outputs } ∧
      KeepsAllBut [.pc, .loader, .env] u t

/-- R51, R122, R217: a block store over the two bytes at `pc` is seen by the next fetch, the byte at the lower address
as the high byte; nothing stands between them. -/
def Obligations.StoredBytesAreFetchedNext : Prop :=
  ∀ (s : State) (x : Nibble) (j : Nat) (hj : j < 15), s.base + x.toNat ≤ 4095 → s.pc.toNat = s.base + j →
    j + 1 ≤ x.toNat →
    ∃ t, exec (.storeRegs x) s = .next t ∧ t.pc = s.pc ∧ fetchWord t = wordOf s.v[j] s.v[j + 1]

/-! ### Control flow -/

/-- R80 (the record's form: R21, R64): `JP nnn`: its word, its effect, and the two corner cases the rule gives: a jump
to itself at its own address is a loop that changes no state (but the loader's turn, the model's own bit, log entry 5),
and after a jump to 0xFFF the next fetch raises `FetchOutOfBounds`. -/
def Obligations.JumpGoesToItsTarget : Prop :=
  ∀ (nnn : Addr12) (s : State),
    (encode (.jp nnn)).toNat = 0x1000 + nnn.toNat ∧ decodeWord (encode (.jp nnn)) = some (.jp nnn) ∧
    (∃ t, exec (.jp nnn) s = .next t ∧ t.pc.toNat = nnn.toNat ∧ KeepsAllBut [.pc] s t ∧
      (nnn = 0xFFF → ∀ u, CycleNext t u →
        ∃ r, step t = .next r ∧ HaltsWith u r .fetchOutOfBounds none (some 0xFFF) (some 0xFFF))) ∧
    (∀ u, CycleNext s u → s.pc.toNat ≤ 4094 → fetchWord s = encode (.jp nnn) → s.pc.toNat = nnn.toNat →
      step s = .next u.closeLoader)

/-- R16, R81 (the record is the spec's decision D19; the capacity is a parameter, log entry 2): with fewer than
`STACK_CAPACITY` entries on the stack, `CALL nnn`
pushes the address of the next instruction and goes to `nnn`; with a full stack it is the fatal condition
`StackOverflow` and nothing else changes. -/
def Obligations.CallPushesAndJumps : Prop :=
  ∀ (nnn : Addr12) (s : State),
    (s.sp < stackCapacity → ∃ t, exec (.call nnn) s = .next t ∧ t.stack = s.pc :: s.stack ∧ t.sp = s.sp + 1 ∧
      t.stackEntry s.sp = some s.pc ∧ t.pc.toNat = nnn.toNat ∧ KeepsAllBut [.pc, .stack] s t) ∧
    (stackCapacity ≤ s.sp → ∃ t, exec (.call nnn) s = .next t ∧
      HaltsWith s t .stackOverflow (some (encode (.call nnn))) (some (s.pc - 2)) none)

/-- R16, R82 (the record is the spec's decision D19): `RET` pops the newest entry into `pc`; with an empty stack it is
the fatal condition `StackUnderflow` and nothing else changes. -/
def Obligations.ReturnPopsIntoPc : Prop :=
  ∀ s : State,
    (∀ a rest, s.stack = a :: rest → ∃ t, exec .ret s = .next t ∧ t.stack = rest ∧ t.sp + 1 = s.sp ∧
      s.stackEntry t.sp = some t.pc ∧ t.pc = a ∧ KeepsAllBut [.pc, .stack] s t) ∧
    (s.sp = 0 → ∃ t, exec .ret s = .next t ∧ HaltsWith s t .stackUnderflow (some 0x00EE) (some (s.pc - 2)) none)

/-- 95_test_vectors.md S8, R81, R82: a `RET` executed with the stack a `CALL` left restores `pc` to the instruction
after the call, and the stack to what it was, wherever else the machine has gone meanwhile. -/
def Obligations.ReturnUndoesCall : Prop :=
  ∀ (nnn : Addr12) (s t u : State), s.sp < stackCapacity → exec (.call nnn) s = .next t → u.stack = t.stack →
    ∃ r, exec .ret u = .next r ∧ r.pc = s.pc ∧ r.stack = s.stack

/-- R83, R84: the skips that compare a register with an immediate. -/
def Obligations.SkipOnImmediate : Prop :=
  ∀ (x : Nibble) (nn : Byte) (s : State),
    (encode (.seImm x nn)).toNat = 0x3000 + 256 * x.toNat + nn.toNat ∧
    decodeWord (encode (.seImm x nn)) = some (.seImm x nn) ∧
    (encode (.sneImm x nn)).toNat = 0x4000 + 256 * x.toNat + nn.toNat ∧
    decodeWord (encode (.sneImm x nn)) = some (.sneImm x nn) ∧
    (∃ t, exec (.seImm x nn) s = .next t ∧ t.pc = (if s.getV x = nn then s.pc + 2 else s.pc) ∧ KeepsAllBut [.pc] s t) ∧
    (∃ t, exec (.sneImm x nn) s = .next t ∧ t.pc = (if s.getV x = nn then s.pc else s.pc + 2) ∧ KeepsAllBut [.pc] s t)

/-- R85, R86: the skips that compare two registers; the words 5xyN and 9xyN with N other than 0 are unrecognized. -/
def Obligations.SkipOnRegisters : Prop :=
  ∀ (x y : Nibble) (s : State),
    (encode (.seReg x y)).toNat = 0x5000 + 256 * x.toNat + 16 * y.toNat ∧
    decodeWord (encode (.seReg x y)) = some (.seReg x y) ∧
    (encode (.sneReg x y)).toNat = 0x9000 + 256 * x.toNat + 16 * y.toNat ∧
    decodeWord (encode (.sneReg x y)) = some (.sneReg x y) ∧
    (∀ n : Nibble, n ≠ 0 → decodeWord (0x5#4 ++ x ++ y ++ n) = none ∧ decodeWord (0x9#4 ++ x ++ y ++ n) = none) ∧
    (∃ t, exec (.seReg x y) s = .next t ∧ t.pc = (if s.getV x = s.getV y then s.pc + 2 else s.pc) ∧
      KeepsAllBut [.pc] s t) ∧
    (∃ t, exec (.sneReg x y) s = .next t ∧ t.pc = (if s.getV x = s.getV y then s.pc else s.pc + 2) ∧
      KeepsAllBut [.pc] s t)

/-- R87 (the sum is not reduced; the spec's decision D8): `JP V0, nnn`. -/
def Obligations.IndexedJumpAddsV0 : Prop :=
  ∀ (nnn : Addr12) (s : State), ∃ t, exec (.jpV0 nnn) s = .next t ∧
    t.pc.toNat = nnn.toNat + (s.getV 0).toNat ∧ KeepsAllBut [.pc] s t

/-! ### Immediate and register ALU -/

/-- R101: `LD Vx, nn`, with `VF` as a plain register. -/
def Obligations.LoadImmediateWritesOneRegister : Prop :=
  ∀ (x : Nibble) (nn : Byte) (s : State),
    (encode (.ldImm x nn)).toNat = 0x6000 + 256 * x.toNat + nn.toNat ∧
    decodeWord (encode (.ldImm x nn)) = some (.ldImm x nn) ∧
    ∃ t, exec (.ldImm x nn) s = .next t ∧ t.getV x = nn ∧ RegsKeptBut [x] s t ∧ KeepsAllBut [.regs] s t

/-- R102: `ADD Vx, nn` modulo 256; no flag, so `VF` keeps its value unless it is the register added to. -/
def Obligations.AddImmediateWrapsWithoutFlag : Prop :=
  ∀ (x : Nibble) (nn : Byte) (s : State),
    (encode (.addImm x nn)).toNat = 0x7000 + 256 * x.toNat + nn.toNat ∧
    decodeWord (encode (.addImm x nn)) = some (.addImm x nn) ∧
    ∃ t, exec (.addImm x nn) s = .next t ∧ (t.getV x).toNat = ((s.getV x).toNat + nn.toNat) % 256 ∧
      RegsKeptBut [x] s t ∧ KeepsAllBut [.regs] s t

/-- R103: `LD Vx, Vy`; with `x = y` nothing changes. -/
def Obligations.CopyRegister : Prop :=
  ∀ (x y : Nibble) (s : State),
    (encode (.ldReg x y)).toNat = 0x8000 + 256 * x.toNat + 16 * y.toNat ∧
    decodeWord (encode (.ldReg x y)) = some (.ldReg x y) ∧
    ∃ t, exec (.ldReg x y) s = .next t ∧ t.getV x = s.getV y ∧ t.getV y = s.getV y ∧ RegsKeptBut [x] s t ∧
      KeepsAllBut [.regs] s t ∧ (x = y → t.v = s.v)

/-- R104, R105, R106 (that `VF` is left unchanged is the spec's decision D27): OR, AND and XOR work bit by bit and
write no flag. -/
def Obligations.LogicIsBitwiseWithoutFlag : Prop :=
  ∀ (x y : Nibble) (s : State),
    (∃ t, exec (.orReg x y) s = .next t ∧
      (∀ k < 8, (t.getV x).getLsbD k = ((s.getV x).getLsbD k || (s.getV y).getLsbD k)) ∧ RegsKeptBut [x] s t ∧
      KeepsAllBut [.regs] s t) ∧
    (∃ t, exec (.andReg x y) s = .next t ∧
      (∀ k < 8, (t.getV x).getLsbD k = ((s.getV x).getLsbD k && (s.getV y).getLsbD k)) ∧ RegsKeptBut [x] s t ∧
      KeepsAllBut [.regs] s t) ∧
    (∃ t, exec (.xorReg x y) s = .next t ∧
      (∀ k < 8, (t.getV x).getLsbD k = ((s.getV x).getLsbD k ^^ (s.getV y).getLsbD k)) ∧ RegsKeptBut [x] s t ∧
      KeepsAllBut [.regs] s t)

/-- R100, R107 (that the flag wins over the result is the spec's decision D3): `ADD Vx, Vy`. -/
def Obligations.AddSetsCarry : Prop :=
  ∀ (x y : Nibble) (s : State), ∃ t, exec (.addReg x y) s = .next t ∧
    t.getV 0xF = (if 255 < (s.getV x).toNat + (s.getV y).toNat then 1 else 0) ∧
    (x ≠ 0xF → (t.getV x).toNat = ((s.getV x).toNat + (s.getV y).toNat) % 256) ∧ RegsKeptBut [x, 0xF] s t ∧
    KeepsAllBut [.regs] s t

/-- R100, R108, R110 (flag last: the spec's decision D3): `SUB Vx, Vy` and `SUBN Vx, Vy`, the flag 1 when no borrow
occurs. -/
def Obligations.SubtractSetsNotBorrow : Prop :=
  ∀ (x y : Nibble) (s : State),
    (∃ t, exec (.sub x y) s = .next t ∧
      t.getV 0xF = (if (s.getV y).toNat ≤ (s.getV x).toNat then 1 else 0) ∧
      (x ≠ 0xF → (t.getV x).toNat = ((s.getV x).toNat + 256 - (s.getV y).toNat) % 256) ∧ RegsKeptBut [x, 0xF] s t ∧
      KeepsAllBut [.regs] s t) ∧
    (∃ t, exec (.subn x y) s = .next t ∧
      t.getV 0xF = (if (s.getV x).toNat ≤ (s.getV y).toNat then 1 else 0) ∧
      (x ≠ 0xF → (t.getV x).toNat = ((s.getV y).toNat + 256 - (s.getV x).toNat) % 256) ∧ RegsKeptBut [x, 0xF] s t ∧
      KeepsAllBut [.regs] s t)

/-- R100, R109, R111 (source register: the spec's decision D4; flag last: D3): `SHR Vx, Vy` and `SHL Vx, Vy` shift
`V[y]` by one bit and deliver the bit shifted out. -/
def Obligations.ShiftsDeliverTheBitShiftedOut : Prop :=
  ∀ (x y : Nibble) (s : State),
    (∃ t, exec (.shr x y) s = .next t ∧
      t.getV 0xF = (if (s.getV y).toNat % 2 = 1 then 1 else 0) ∧
      (x ≠ 0xF → (t.getV x).toNat = (s.getV y).toNat / 2) ∧ RegsKeptBut [x, 0xF] s t ∧ KeepsAllBut [.regs] s t) ∧
    (∃ t, exec (.shl x y) s = .next t ∧
      t.getV 0xF = (if 128 ≤ (s.getV y).toNat then 1 else 0) ∧
      (x ≠ 0xF → (t.getV x).toNat = (s.getV y).toNat * 2 % 256) ∧ RegsKeptBut [x, 0xF] s t ∧ KeepsAllBut [.regs] s t)

/-! ### Index register and memory -/

/-- R120 (that no flag is written is the spec's decision D9): `LD I, nnn`. -/
def Obligations.LoadIndexWritesIOnly : Prop :=
  ∀ (nnn : Addr12) (s : State), ∃ t, exec (.ldI nnn) s = .next t ∧ t.i.toNat = nnn.toNat ∧ KeepsAllBut [.index] s t

/-- R100, R121 (the reading of the flag is the spec's decision D9): `ADD I, Vx` keeps 16 bits, and the flag tells
whether the unreduced sum passed 0xFFF. -/
def Obligations.AddToIndexFlagsPastTwelveBits : Prop :=
  ∀ (x : Nibble) (s : State), ∃ t, exec (.addI x) s = .next t ∧
    t.i.toNat = (s.i.toNat + (s.getV x).toNat) % 65536 ∧
    t.getV 0xF = (if 0x0FFF < s.i.toNat + (s.getV x).toNat then 1 else 0) ∧ RegsKeptBut [0xF] s t ∧
    KeepsAllBut [.regs, .index] s t

/-- R122 (parameter `LOAD_STORE_INCREMENT`, log entry 1): inside memory, `LD [I], Vx` stores `V0`..`Vx` at `I`..`I+x`,
no other byte changes, and `I` advances by `x + 1` exactly in the increment mode. -/
def Obligations.StoreRegistersWritesTheBlock : Prop :=
  ∀ (x : Nibble) (s : State), s.base + x.toNat ≤ 4095 → ∃ t, exec (.storeRegs x) s = .next t ∧
    (∀ j : Nibble, j.toNat ≤ x.toNat → t.readByte (s.base + j.toNat) = s.getV j) ∧
    MemoryKeptOutside s.base (x.toNat + 1) s t ∧
    t.i.toNat = (if loadStoreIncrement then s.i.toNat + x.toNat + 1 else s.i.toNat) ∧
    KeepsAllBut [.memory, .index] s t

/-- R123 (parameter `LOAD_STORE_INCREMENT`, log entry 1): inside memory, `LD Vx, [I]` loads `V0`..`Vx` from
`I`..`I+x`, the other registers and all of memory keep their values, and `I` advances by `x + 1` exactly in the
increment mode. -/
def Obligations.LoadRegistersReadsTheBlock : Prop :=
  ∀ (x : Nibble) (s : State), s.base + x.toNat ≤ 4095 → ∃ t, exec (.loadRegs x) s = .next t ∧
    (∀ j : Nibble, t.getV j = (if j.toNat ≤ x.toNat then s.readByte (s.base + j.toNat) else s.getV j)) ∧
    t.i.toNat = (if loadStoreIncrement then s.i.toNat + x.toNat + 1 else s.i.toNat) ∧
    KeepsAllBut [.regs, .index] s t

/-- R124: inside memory, `LD B, Vx` stores the hundreds, tens and units of `V[x]`, each digit a byte, and changes no
other byte; `I` stays. -/
def Obligations.BcdStoresThreeDigits : Prop :=
  ∀ (x : Nibble) (s : State), s.base + 2 ≤ 4095 → ∃ t, exec (.ldB x) s = .next t ∧
    (t.readByte s.base).toNat = (s.getV x).toNat / 100 ∧
    (t.readByte (s.base + 1)).toNat = (s.getV x).toNat / 10 % 10 ∧
    (t.readByte (s.base + 2)).toNat = (s.getV x).toNat % 10 ∧
    MemoryKeptOutside s.base 3 s t ∧ KeepsAllBut [.memory] s t

/-- R15, R125 (the glyph order is the spec's decision D11): for a selector up to 15, `LD F, Vx` puts the address of
that hex digit's glyph into `I`. -/
def Obligations.GlyphAddressOfAHexDigit : Prop :=
  ∀ (x : Nibble) (s : State), (s.getV x).toNat ≤ 15 → ∃ t, exec (.ldF x) s = .next t ∧
    t.i.toNat = 0x050 + 5 * (s.getV x).toNat ∧ KeepsAllBut [.index] s t

/-- R41, R53, R54, R170, R171 (the spec's decisions D7, D13, D19): when the highest address `I + offset`, unreduced, is
above 4095, a block store, a block load, a BCD store and a draw of at least one row are the fatal condition
`MemoryOutOfBounds` with that address as detail, and nothing else changes. -/
def Obligations.AccessBeyondMemoryHalts : Prop :=
  ∀ (x y n : Nibble) (s : State),
    (4095 < s.base + x.toNat →
      (∃ t, exec (.storeRegs x) s = .next t ∧ HaltsWith s t .memoryOutOfBounds (some (encode (.storeRegs x)))
        (some (s.pc - 2)) (some (s.base + x.toNat))) ∧
      (∃ t, exec (.loadRegs x) s = .next t ∧ HaltsWith s t .memoryOutOfBounds (some (encode (.loadRegs x)))
        (some (s.pc - 2)) (some (s.base + x.toNat)))) ∧
    (4095 < s.base + 2 → ∃ t, exec (.ldB x) s = .next t ∧ HaltsWith s t .memoryOutOfBounds (some (encode (.ldB x)))
      (some (s.pc - 2)) (some (s.base + 2))) ∧
    (n ≠ 0 → 4095 < s.base + (n.toNat - 1) → ∃ t, exec (.drw x y n) s = .next t ∧ HaltsWith s t .memoryOutOfBounds
      (some (encode (.drw x y n))) (some (s.pc - 2)) (some (s.base + (n.toNat - 1))))

/-- R125, R150, R151, R170, R171 (the spec's decisions D10, D19): a glyph or key selector above 15 is the fatal
condition `SelectorOutOfRange` with the selector as detail, and nothing else changes. -/
def Obligations.SelectorAboveFifteenHalts : Prop :=
  ∀ (x : Nibble) (s : State) (i : Instr), i ∈ [Instr.ldF x, .skp x, .sknp x] → 15 < (s.getV x).toNat →
    ∃ t, exec i s = .next t ∧
      HaltsWith s t .selectorOutOfRange (some (encode i)) (some (s.pc - 2)) (some (s.getV x).toNat)

/-- R14, R41, R44: a byte written is read back, every other byte keeps its value, whatever the list that holds the
memory; and two memories in canonical form that read alike everywhere are the same list. -/
def Obligations.MemoryReadsBackWhatWasWritten : Prop :=
  (∀ (m : Memory) (a b : Nat) (v : Byte), readMem (writeMem m a v) b = if b = a then v else readMem m b) ∧
    ∀ m k : Memory, m.wf → k.wf → (∀ a, readMem m a = readMem k a) → m = k

/-! ### Random byte and display -/

/-- R140 (the byte is the free value of log entry 3): `RND Vx, nn` writes the environment's next byte masked by `nn`,
whatever that byte is, and takes one byte; bits where the mask is 0 are 0. The second part says the masking for every
byte the environment could supply. -/
def Obligations.RandomByteIsMasked : Prop :=
  ∀ (x : Nibble) (nn : Byte) (s : State),
    (∃ t, exec (.rnd x nn) s = .next t ∧ t.getV x = randomByte s.env.draws &&& nn ∧ t.getV x &&& ~~~nn = 0 ∧
      RegsKeptBut [x] s t ∧ t.env.draws = s.env.draws + 1 ∧ t.env.schedule = s.env.schedule ∧
      t.env.outputs = s.env.outputs ∧ KeepsAllBut [.regs, .env] s t) ∧
    ∀ r : Byte, (rndWith r x nn s).getV x = r &&& nn ∧ RegsKeptBut [x] s (rndWith r x nn s)

/-- R141, R143 (bit order, decision D12; all rows read, D13; flag last, D3): inside memory `DRW Vx, Vy, n` toggles
exactly the display cells of the grid that the sprite covers, none outside it, and `VF` is 1 exactly when one of them
was lit. The loop over pixels is stated here cell by cell. -/
def Obligations.DrawTogglesExactlyTheSpriteCells : Prop :=
  ∀ (x y n : Nibble) (s : State), n = 0 ∨ s.base + (n.toNat - 1) ≤ 4095 → ∃ t, exec (.drw x y n) s = .next t ∧
    (∀ row < 32, ∀ col < 64,
      cellAt t.display row col = (cellAt s.display row col ^^ spriteCovers x y n s row col)) ∧
    ((∃ row < 32, ∃ col < 64, spriteCovers x y n s row col = true ∧ cellAt s.display row col = true) →
      t.getV 0xF = 1) ∧
    ((¬ ∃ row < 32, ∃ col < 64, spriteCovers x y n s row col = true ∧ cellAt s.display row col = true) →
      t.getV 0xF = 0) ∧
    RegsKeptBut [0xF] s t ∧ KeepsAllBut [.regs, .display] s t

/-- 95_test_vectors.md S7, R141: drawing the same sprite twice at the same position restores the display; from a blank
display the first draw reports no collision and the second reports one if the first drew any pixel. The coordinate
registers are not `VF`, which the first draw writes. -/
def Obligations.DrawingTwiceRestoresTheDisplay : Prop :=
  ∀ (x y n : Nibble) (s t u : State), x ≠ 0xF → y ≠ 0xF → n = 0 ∨ s.base + (n.toNat - 1) ≤ 4095 →
    exec (.drw x y n) s = .next t → exec (.drw x y n) t = .next u →
    u.display = s.display ∧
      (s.display = blankDisplay → t.getV 0xF = 0 ∧ (t.display ≠ blankDisplay → u.getV 0xF = 1))

/-- R142: `CLS`, the word 0x00E0: every cell is off, `VF` is not written, nothing else changes; clearing a clear display
changes nothing. -/
def Obligations.ClearTurnsEveryCellOff : Prop :=
  ∀ s : State, encode .cls = 0x00E0 ∧ decodeWord 0x00E0 = some .cls ∧
    ∃ t, exec .cls s = .next t ∧ (∀ row < 32, ∀ col < 64, cellAt t.display row col = false) ∧
      KeepsAllBut [.display] s t ∧ (s.display = t.display → t = s)

/-! ### Keys and timers -/

/-- R88, R150, R151: for a selector up to 15, `SKP Vx` and `SKNP Vx` skip by the state of that key and change nothing
else. -/
def Obligations.KeySkipsTestTheKeyState : Prop :=
  ∀ (x k : Nibble) (s : State), (s.getV x).toNat = k.toNat →
    (∃ t, exec (.skp x) s = .next t ∧ t.pc = (if s.getKey k then s.pc + 2 else s.pc) ∧ KeepsAllBut [.pc] s t) ∧
    (∃ t, exec (.sknp x) s = .next t ∧ t.pc = (if s.getKey k then s.pc else s.pc + 2) ∧ KeepsAllBut [.pc] s t)

/-- R152, R154: `LD Vx, DT` reads the delay timer into one register, `LD ST, Vx` sets the sound timer. -/
def Obligations.TimersAreReadAndSet : Prop :=
  ∀ (x : Nibble) (s : State),
    (∃ t, exec (.readDt x) s = .next t ∧ t.getV x = s.dt ∧ RegsKeptBut [x] s t ∧ KeepsAllBut [.regs] s t) ∧
    (∃ t, exec (.setSt x) s = .next t ∧ t.st = s.getV x ∧ KeepsAllBut [.soundTimer] s t)

/-- R153: `LD DT, Vx`: its word, its effect, and that the first decrement comes at the next tick, none after 0. -/
def Obligations.SetDelayTimer : Prop :=
  ∀ (x : Nibble) (s : State),
    (encode (.setDt x)).toNat = 0xF015 + 256 * x.toNat ∧ decodeWord (encode (.setDt x)) = some (.setDt x) ∧
    ∃ t, exec (.setDt x) s = .next t ∧ t.dt = s.getV x ∧ KeepsAllBut [.delayTimer] s t ∧
      (tick t).dt.toNat = (s.getV x).toNat - 1

/-- R26, R155 (where `pc` stands: the spec's decision D16 and 90_conflicts.md C3): `LD Vx, K` suspends the engine with
the register that will receive the key; `pc` stays at its advanced value and nothing else changes. -/
def Obligations.WaitSuspendsTheEngine : Prop :=
  ∀ (x : Nibble) (s : State), ∃ t, exec (.waitKey x) s = .next t ∧ t.mode = .awaitingKey x ∧ t.waitReg = some x ∧
    KeepsAllBut [.mode] s t

/-- R155, R185, R186, R187 (decision D16): while the engine waits, the next press delivers its key number to the
register of the wait, sets the engine running, counts one press and sets the bit of that key, and changes nothing else.
With nothing scheduled the machine waits unchanged, and a scheduled `Step` is taken without effect (the model's idle
steps, log entry 5); a tick, a snapshot, or a release at a count above 0 leaves the wait pending and every piece but
its own unchanged. -/
def Obligations.OnlyAPressEndsTheWait : Prop :=
  ∀ (s : State) (x : Nibble), s.mode = .awaitingKey x →
    (s.env.schedule = [] → step s = .next s) ∧
    (∀ k rest, s.env.schedule = .keyDown k :: rest → ∃ t, step s = .next t ∧ t.mode = .running ∧
      (t.getV x).toNat = k.toNat ∧ RegsKeptBut [x] s t ∧ t.getKey k = true ∧ (∀ j, j ≠ k → t.getKey j = s.getKey j) ∧
      t.pressedCount = s.pressedCount + 1 ∧ t.env = { s.env with schedule := rest } ∧
      KeepsAllBut [.regs, .keys, .mode, .env] s t) ∧
    (∀ rest, s.env.schedule = .cycle :: rest → ∃ t, step s = .next t ∧ t.mode = .awaitingKey x ∧
      t.env = { s.env with schedule := rest } ∧ KeepsAllBut [.env] s t) ∧
    (∀ e rest, s.env.schedule = e :: rest → e ∈ [Input.tick, .snapshot] ∨ (∃ k, e = .keyUp k) ∧ 0 < s.pressedCount →
      ∃ t, step s = .next t ∧ t.mode = .awaitingKey x ∧ t.env.schedule = rest ∧
        KeepsAllBut [.delayTimer, .soundTimer, .keys, .env] s t)

/-! ### Events -/

/-- R180, R181 (one tick for both counters: decision D28): while the machine is not halted, a `Tick` takes one from each
timer that is not zero and changes nothing else but the schedule. -/
def Obligations.TickCountsBothTimersDown : Prop :=
  ∀ (s : State) (rest : List Input), s.env.schedule = .tick :: rest → ¬ Halted s →
    ∃ t, step s = .next t ∧ t.dt.toNat = s.dt.toNat - 1 ∧ t.st.toNat = s.st.toNat - 1 ∧
      t.env = { s.env with schedule := rest } ∧ KeepsAllBut [.delayTimer, .soundTimer, .env] s t

/-- R185 (repeated presses: decision D17): a `KeyDown(k)` while the engine runs counts one press and sets the bit of
that key, and changes nothing else but the schedule. -/
def Obligations.KeyDownMarksAndCounts : Prop :=
  ∀ (s : State) (k : Nibble) (rest : List Input), s.env.schedule = .keyDown k :: rest → s.mode = .running →
    ∃ t, step s = .next t ∧ t.pressedCount = s.pressedCount + 1 ∧ t.getKey k = true ∧
      (∀ j, j ≠ k → t.getKey j = s.getKey j) ∧ t.env = { s.env with schedule := rest } ∧ KeepsAllBut [.keys, .env] s t

/-- R186, R170 code 6 (decisions D17, D19): a `KeyUp(k)` of a machine that is not halted takes one from the press count
and clears the bit of that key; at count 0 it is the fatal condition `KeyCountNegative` with no word and no address. -/
def Obligations.KeyUpCountsDownOrHalts : Prop :=
  ∀ (s : State) (k : Nibble) (rest : List Input), s.env.schedule = .keyUp k :: rest → ¬ Halted s →
    (0 < s.pressedCount → ∃ t, step s = .next t ∧ t.pressedCount + 1 = s.pressedCount ∧ t.getKey k = false ∧
      (∀ j, j ≠ k → t.getKey j = s.getKey j) ∧ KeepsAllBut [.keys, .env] s t) ∧
    (s.pressedCount = 0 → ∃ t, step s = .next t ∧ t.mode = .halted ⟨.keyCountNegative, none, none, some k.toNat⟩ ∧
      FatalKind.keyCountNegative.code = 6 ∧ KeepsAllBut [.mode, .env] s t)

/-- R191 (decision D30): in every mode a `Snapshot` emits a copy of all cells of the display and changes no state. -/
def Obligations.SnapshotEmitsTheDisplay : Prop :=
  ∀ (s : State) (rest : List Input), s.env.schedule = .snapshot :: rest → ∃ t, step s = .next t ∧
    t.env.outputs = .snapshot s.display :: s.env.outputs ∧ KeepsAllBut [.env] s t

/-- R24, R212, R213: before the first cycle, the first `Load(image)` of a machine that is not halted puts byte `j` of the
image at 0x200 + j and modifies no other memory cell and nothing else, and the loader's turn is over (the model's own
bit, log entry 5). An image over 3584 bytes is rejected. After the first cycle or a first `Load`, a `Load` is no action
the loader has: that the model answers a refusal there, and for the long image, so that no state of the machine comes
after it, is the model's choice, log entry 5. -/
def Obligations.LoadCopiesTheImage : Prop :=
  ∀ (s : State) (image : List Byte) (rest : List Input), s.env.schedule = .load image :: rest → ¬ Halted s →
    (s.loaderOpen = true → image.length ≤ 3584 → ∃ t, step s = .next t ∧
      (∀ (j : Nat) (hj : j < image.length), t.readByte (0x200 + j) = image[j]) ∧
      MemoryKeptOutside 0x200 image.length s t ∧ t.loaderOpen = false ∧ t.env = { s.env with schedule := rest } ∧
      KeepsAllBut [.memory, .loader, .env] s t) ∧
    (s.loaderOpen = true → 3584 < image.length → step s = .refused .imageTooLong) ∧
    (s.loaderOpen = false → step s = .refused .loaderClosed)

/-- R211: after reset, and after loading any image of at least two bytes, the first word fetched is at 0x200, made of
the image's first two bytes: the entry address is the constant 0x200, no word of memory. How a load is called for is
log entry 4; that the engine runs after reset is the spec's decision D18. -/
def Obligations.EntryPointIsTheLoadAddress : Prop :=
  State.reset.pc = 0x200 ∧
    ∀ (a b : Byte) (rest : List Byte), rest.length ≤ 3582 →
      ∃ t, step (State.reset.setSchedule [.load (a :: b :: rest)]) = .next t ∧ t.pc = 0x200 ∧ t.mode = .running ∧
        t.env.schedule = [] ∧ fetchWord t = wordOf a b

/-- R210, R214 (reset during a run: decision D25): in every mode a `Reset` puts every piece of the machine's state at
its reset value; only the record of the environment goes on (log entry 6). -/
def Obligations.ResetRestoresEveryPiece : Prop :=
  ∀ (s : State) (rest : List Input), s.env.schedule = .reset :: rest → ∃ t, step s = .next t ∧
    KeepsAllBut [.env] State.reset t ∧ t.env = { s.env with schedule := rest }

/-- R15, R25, R45 (values the source does not state: decision D18; glyph bytes: the parameter `GLYPH_ROM`, log entry 10;
the fields of `env`: the model's, log entries 3, 4, 6): the state after reset. -/
def Obligations.ResetStateIsAsSpecified : Prop :=
  State.reset.pc = 0x200 ∧ (∀ x, State.reset.getV x = 0) ∧ State.reset.i = 0 ∧
    (∀ d < 16, ∀ r < 5, ∀ h : 5 * d + r < 80, State.reset.readByte (0x050 + 5 * d + r) = glyphRom[5 * d + r]) ∧
    (∀ a, a < 0x050 ∨ 0x0A0 ≤ a → State.reset.readByte a = 0) ∧ State.reset.sp = 0 ∧ State.reset.dt = 0 ∧
    State.reset.st = 0 ∧ (∀ row < 32, ∀ col < 64, cellAt State.reset.display row col = false) ∧
    (∀ k, State.reset.getKey k = false) ∧ State.reset.pressedCount = 0 ∧ State.reset.mode = .running ∧
    State.reset.faultRecord = none

/-! ### Whole-machine rules -/

/-- R20, R171, R173 (decisions D19, D30): a halted machine with nothing scheduled stops with its record (the model's
fault, log entry 5); any scheduled
input but a reset leaves it halted with every piece of its state unchanged. -/
def Obligations.HaltedMachineStandsStill : Prop :=
  ∀ (s : State) (r : FaultRecord), s.mode = .halted r →
    (s.env.schedule = [] → step s = .fault (.halted r)) ∧
    ∀ e rest, s.env.schedule = e :: rest → e ≠ .reset → ∃ t, step s = .next t ∧ t.faultRecord = some r ∧
      KeepsAllBut [.env] s t

/-- The invariant holds after reset (R12, R16, R25). -/
def Obligations.ResetMeetsTheInvariant : Prop := State.reset.Inv

/-- R12, R16, R26, and the canonical form of memory: from every state that meets the invariant, every step that answers
a next state answers one that meets it, whatever instruction or input it takes. -/
def Obligations.EveryStepKeepsTheInvariant : Prop := ∀ s t : State, s.Inv → step s = .next t → t.Inv

/-- R11, R13, R16 to R20, R26, R40: every instruction answers a next state; either that is the state after a fatal
condition, with nothing but `mode` changed, or only the pieces of state and the registers the spec lets this
instruction write have changed, and of memory only the bytes from `I` upward that it stores to (R122, R124). -/
def Obligations.EveryInstructionKeepsItsFrame : Prop :=
  ∀ (i : Instr) (s : State), ∃ t, exec i s = .next t ∧
    (Halted t ∧ KeepsAllBut [.mode] s t ∨
      KeepsAllBut (writableParts i) s t ∧ RegsKeptBut (writableRegs i) s t ∧
        MemoryKeptOutside s.base (storedCount i) s t)

/-- R11: the seven instructions that write the flag leave `VF` at 0 or 1 unless they meet a fatal condition, and no other
instruction changes `VF` unless it names it as its destination. -/
def Obligations.OnlySevenInstructionsWriteTheFlag : Prop :=
  ∀ (i : Instr) (s t : State), exec i s = .next t →
    (writesFlag i = true → Halted t ∧ KeepsAllBut [.mode] s t ∨ t.getV 0xF = 0 ∨ t.getV 0xF = 1) ∧
    (writesFlag i = false → (0xF : Nibble) ∉ namedDestination i → t.getV 0xF = s.getV 0xF)

/-- R21, R170, R171, R172 (decision D19): when the cycle of a running engine ends halted, nothing but `mode`, `pc` and
the loader's turn has changed; either the fetch was out of bounds, or the record names the word fetched and the
address it was fetched from, and `pc` is that address plus 2. The cycle is the engine's turn or a scheduled `Step`
(R195), taken from `u`. -/
def Obligations.FatalCyclesArePrecise : Prop :=
  ∀ s u t : State, CycleNext s u → step s = .next t → Halted t →
    KeepsAllBut [.mode, .pc, .loader] u t ∧
      ∃ r, t.faultRecord = some r ∧
        (4094 < s.pc.toNat ∧ r.kind = .fetchOutOfBounds ∧ t.pc = s.pc ∨
          s.pc.toNat ≤ 4094 ∧ r.kind ≠ .fetchOutOfBounds ∧ r.kind ≠ .keyCountNegative ∧
            r.word = some (fetchWord s) ∧ r.addr = some s.pc ∧ t.pc = s.pc + 2)

/-- R20: how `mode` changes in a step: into a wait only by the engine's `LD Vx, K`, from a wait to `Running` only by a
press or a reset, out of `Halted` only by a reset. -/
def Obligations.ModeChangesAreTheStatedOnes : Prop :=
  ∀ s t : State, step s = .next t →
    (∀ x, s.mode = .running → t.mode = .awaitingKey x → decodeWord (fetchWord s) = some (.waitKey x)) ∧
    (∀ x y, s.mode = .awaitingKey x → t.mode = .awaitingKey y → x = y) ∧
    (∀ x, s.mode = .awaitingKey x → t.mode = .running →
      ∃ rest, s.env.schedule = .reset :: rest ∨ ∃ k, s.env.schedule = .keyDown k :: rest) ∧
    (Halted s → t.mode ≠ s.mode → ∃ rest, s.env.schedule = .reset :: rest)

/-- R24, R40, R47, R212, R213: a step changes a byte of memory only as an engine cycle of `LD B, Vx` or `LD [I], Vx`, as
a load while the loader has its turn (the model's boot bit, log entry 5), or as a reset. -/
def Obligations.OnlyStoresLoadsAndResetChangeMemory : Prop :=
  ∀ (s t : State) (a : Nat), step s = .next t → t.readByte a ≠ s.readByte a →
    (s.mode = .running ∧ ∃ x, decodeWord (fetchWord s) = some (.ldB x) ∨ decodeWord (fetchWord s) = some (.storeRegs x)) ∨
      ∃ rest, s.env.schedule = .reset :: rest ∨ s.loaderOpen = true ∧ ∃ image, s.env.schedule = .load image :: rest

/-- R19, R176: the key states and the press count change only by a key event or a reset; no instruction changes them. -/
def Obligations.OnlyKeyEventsChangeTheKeys : Prop :=
  ∀ s t : State, step s = .next t → t.key ≠ s.key ∨ t.pressedCount ≠ s.pressedCount →
    ∃ rest, s.env.schedule = .reset :: rest ∨ ∃ k, s.env.schedule = .keyDown k :: rest ∨ s.env.schedule = .keyUp k :: rest

/-- R220: in a step that is no reset, the delay timer never increases except by the engine's `LD DT, Vx`, and never
decreases by more than one except by it. -/
def Obligations.DelayTimerRisesOnlyByItsInstruction : Prop :=
  ∀ s t : State, step s = .next t → (∀ rest, s.env.schedule ≠ .reset :: rest) →
    (t.dt.toNat ≤ s.dt.toNat ∧ s.dt.toNat ≤ t.dt.toNat + 1) ∨
      s.mode = .running ∧ ∃ x, decodeWord (fetchWord s) = some (.setDt x) ∧ t.dt = s.getV x

/-- R17, R154, R183: no step depends on the sound timer: with any other value of `ST`, the step answers the same state
but for `ST` itself. -/
def Obligations.SoundTimerIsInvisible : Prop :=
  ∀ (s t : State) (b : Byte), step s = .next t → ∃ c, step (s.setSt b) = .next (t.setSt c)

/-- R215 (a convention of the spec, decision D26): a program at rest takes engine cycles that change nothing (but the
loader's turn, log entry 5) and stays at rest, whether a cycle is the engine's turn or a scheduled `Step` (R195). -/
def Obligations.ProgramAtRestStaysAtRest : Prop :=
  ∀ s u : State, AtRest s → CycleNext s u → ∃ t, step s = .next t ∧ AtRest t ∧ KeepsAllBut [.loader] u t
end

