-- ==== Sys2Proof/Laws/Decode.lean ====
section
/-! SUPPORT. The fields of a word as numbers, and of a word put together from fields (R61, R62). -/

namespace Sys2Proof

theorem toNat_append_add {m n : Nat} (x : BitVec m) (y : BitVec n) : (x ++ y).toNat = x.toNat * 2 ^ n + y.toNat := by
  rw [BitVec.toNat_append, ← Nat.shiftLeft_add_eq_or_of_lt y.isLt, Nat.shiftLeft_eq]

theorem toNat_opOf (w : Word) : (opOf w).toNat = w.toNat / 4096 := by
  have := w.isLt
  simp [opOf, Nat.shiftRight_eq_div_pow]; omega
theorem toNat_xOf (w : Word) : (xOf w).toNat = w.toNat / 256 % 16 := by
  simp [xOf, Nat.shiftRight_eq_div_pow]
theorem toNat_yOf (w : Word) : (yOf w).toNat = w.toNat / 16 % 16 := by
  simp [yOf, Nat.shiftRight_eq_div_pow]
theorem toNat_nOf (w : Word) : (nOf w).toNat = w.toNat % 16 := by
  simp [nOf]
theorem toNat_nnOf (w : Word) : (nnOf w).toNat = w.toNat % 256 := by
  simp [nnOf]
theorem toNat_nnnOf (w : Word) : (nnnOf w).toNat = w.toNat % 4096 := by
  simp [nnnOf]
theorem toNat_highByte (w : Word) : (highByte w).toNat = w.toNat / 256 := by
  have := w.isLt
  simp [highByte, Nat.shiftRight_eq_div_pow]; omega
theorem toNat_wordOf (hi lo : Byte) : (wordOf hi lo).toNat = hi.toNat * 256 + lo.toNat := by
  simpa [wordOf] using toNat_append_add hi lo

/-- The word of format `NNN`. -/
theorem toNat_nnnWord (o : Nibble) (a : Addr12) : (o ++ a : Word).toNat = o.toNat * 4096 + a.toNat :=
  toNat_append_add o a

/-- The word of format `XNN`, and of format `X` with its fixed low byte. -/
theorem toNat_xnnWord (o x : Nibble) (nn : Byte) :
    (o ++ x ++ nn : Word).toNat = o.toNat * 4096 + x.toNat * 256 + nn.toNat := by
  have h1 : (o ++ x ++ nn : Word).toNat = (o ++ x : Byte).toNat * 256 + nn.toNat := toNat_append_add (o ++ x) nn
  have h2 : (o ++ x : Byte).toNat = o.toNat * 16 + x.toNat := toNat_append_add o x
  rw [h1, h2]; omega

/-- The word of format `XYN`. -/
theorem toNat_xynWord (o x y n : Nibble) :
    (o ++ x ++ y ++ n : Word).toNat = o.toNat * 4096 + x.toNat * 256 + y.toNat * 16 + n.toNat := by
  have h1 : (o ++ x ++ y ++ n : Word).toNat = (o ++ x ++ y : Addr12).toNat * 16 + n.toNat :=
    toNat_append_add (o ++ x ++ y) n
  have h2 : (o ++ x ++ y : Addr12).toNat = (o ++ x : Byte).toNat * 16 + y.toNat := toNat_append_add (o ++ x) y
  have h3 : (o ++ x : Byte).toNat = o.toNat * 16 + x.toNat := toNat_append_add o x
  rw [h1, h2, h3]; omega

theorem opOf_nnnWord (o : Nibble) (a : Addr12) : opOf (o ++ a) = o := by
  apply BitVec.eq_of_toNat_eq
  have := a.isLt
  rw [toNat_opOf, toNat_nnnWord]; omega
theorem nnnOf_nnnWord (o : Nibble) (a : Addr12) : nnnOf (o ++ a) = a := by
  apply BitVec.eq_of_toNat_eq
  have := a.isLt
  rw [toNat_nnnOf, toNat_nnnWord]; omega
theorem opOf_xnnWord (o x : Nibble) (nn : Byte) : opOf (o ++ x ++ nn) = o := by
  apply BitVec.eq_of_toNat_eq
  have := x.isLt
  have := nn.isLt
  rw [toNat_opOf, toNat_xnnWord]; omega
theorem xOf_xnnWord (o x : Nibble) (nn : Byte) : xOf (o ++ x ++ nn) = x := by
  apply BitVec.eq_of_toNat_eq
  have := x.isLt
  have := nn.isLt
  rw [toNat_xOf, toNat_xnnWord]; omega
theorem nnOf_xnnWord (o x : Nibble) (nn : Byte) : nnOf (o ++ x ++ nn) = nn := by
  apply BitVec.eq_of_toNat_eq
  have := nn.isLt
  rw [toNat_nnOf, toNat_xnnWord]; omega
theorem opOf_xynWord (o x y n : Nibble) : opOf (o ++ x ++ y ++ n) = o := by
  apply BitVec.eq_of_toNat_eq
  have := x.isLt
  have := y.isLt
  have := n.isLt
  rw [toNat_opOf, toNat_xynWord]; omega
theorem xOf_xynWord (o x y n : Nibble) : xOf (o ++ x ++ y ++ n) = x := by
  apply BitVec.eq_of_toNat_eq
  have := x.isLt
  have := y.isLt
  have := n.isLt
  rw [toNat_xOf, toNat_xynWord]; omega
theorem yOf_xynWord (o x y n : Nibble) : yOf (o ++ x ++ y ++ n) = y := by
  apply BitVec.eq_of_toNat_eq
  have := y.isLt
  have := n.isLt
  rw [toNat_yOf, toNat_xynWord]; omega
theorem nOf_xynWord (o x y n : Nibble) : nOf (o ++ x ++ y ++ n) = n := by
  apply BitVec.eq_of_toNat_eq
  have := n.isLt
  rw [toNat_nOf, toNat_xynWord]; omega

/-- A word is made of its two bytes, high byte first (R42). -/
theorem wordOf_bytes (w : Word) : wordOf (highByte w) (nnOf w) = w := by
  apply BitVec.eq_of_toNat_eq
  rw [toNat_wordOf, toNat_highByte, toNat_nnOf]; omega

/-- Decoding two bytes reads the big-endian word (R42, R69). -/
theorem decode_wordBytes (w : Word) (rest : List Byte) :
    decode (wordBytes w ++ rest) = match decodeWord w with
      | some i => .ok (i, rest)
      | none => .error (.unrecognized w) := by
  cases h : decodeWord w <;> simp only [wordBytes, List.cons_append, List.nil_append, decode, wordOf_bytes, h]

/-- What the decoder reads from a number in the opcode table's numbering. -/
theorem decodeTableWord_eq (nbits w : Nat) : decodeTableWord nbits w = decodeWord (tableWord nbits w) := by
  have h := decode_wordBytes (tableWord nbits w) []
  simp only [List.append_nil] at h
  rw [decodeTableWord, h]
  cases decodeWord (tableWord nbits w) <;> rfl

/-! ### The three masks of R65 as fields -/

/-- Mask 0xF000 keeps `op`. -/
theorem and_F000 (w : Word) : w &&& (0xF000 : Word) = (opOf w ++ 0#12 : Word) := by
  apply BitVec.eq_of_getLsbD_eq
  intro k hk
  have h : (opOf w ++ 0#12 : Word).getLsbD k =
      if k < 12 then false else (opOf w).getLsbD (k - 12) := by
    simpa using BitVec.getLsbD_append (x := opOf w) (y := 0#12) (i := k)
  rw [h]
  interval_cases k <;> simp [opOf]

/-- Mask 0xF00F keeps `op` and `n`. -/
theorem and_F00F (w : Word) : w &&& (0xF00F : Word) = (opOf w ++ 0#4 ++ 0#4 ++ nOf w : Word) := by
  apply BitVec.eq_of_getLsbD_eq
  intro k hk
  have h : (opOf w ++ 0#4 ++ 0#4 ++ nOf w : Word).getLsbD k =
      if k < 4 then (nOf w).getLsbD k else (opOf w ++ 0#4 ++ 0#4 : Addr12).getLsbD (k - 4) := by
    simpa using BitVec.getLsbD_append (x := opOf w ++ 0#4 ++ 0#4) (y := nOf w) (i := k)
  have h2 (j : Nat) : (opOf w ++ 0#4 ++ 0#4 : Addr12).getLsbD j =
      if j < 4 then false else (opOf w ++ 0#4 : Byte).getLsbD (j - 4) := by
    simpa using BitVec.getLsbD_append (x := opOf w ++ 0#4) (y := 0#4) (i := j)
  have h3 (j : Nat) : (opOf w ++ 0#4 : Byte).getLsbD j =
      if j < 4 then false else (opOf w).getLsbD (j - 4) := by
    simpa using BitVec.getLsbD_append (x := opOf w) (y := 0#4) (i := j)
  rw [h, h2, h3]
  interval_cases k <;> simp [opOf, nOf]

/-- Mask 0xF0FF keeps `op` and `nn`. -/
theorem and_F0FF (w : Word) : w &&& (0xF0FF : Word) = (opOf w ++ 0#4 ++ nnOf w : Word) := by
  apply BitVec.eq_of_getLsbD_eq
  intro k hk
  have h : (opOf w ++ 0#4 ++ nnOf w : Word).getLsbD k =
      if k < 8 then (nnOf w).getLsbD k else (opOf w ++ 0#4 : Byte).getLsbD (k - 8) := by
    simpa using BitVec.getLsbD_append (x := opOf w ++ 0#4) (y := nnOf w) (i := k)
  have h3 (j : Nat) : (opOf w ++ 0#4 : Byte).getLsbD j =
      if j < 4 then false else (opOf w).getLsbD (j - 4) := by
    simpa using BitVec.getLsbD_append (x := opOf w) (y := 0#4) (i := j)
  rw [h, h3]
  interval_cases k <;> simp [opOf, nnOf]

end Sys2Proof
end

