-- ==== Sys2Proof/Laws/State.lean ====
section
/-! SUPPORT. The small lemmas of the named updates: one per field per update, the register read over each update, and
the byte read over each update, all true by unfolding once here. -/

namespace Sys2Proof.Machine

variable (s : State)

/-! `setRegs` -/

@[simp] theorem State.setRegs_v (w : Vector Byte 16) : (s.setRegs w).v = w := rfl
@[simp] theorem State.setRegs_pc (w : Vector Byte 16) : (s.setRegs w).pc = s.pc := rfl
@[simp] theorem State.setRegs_i (w : Vector Byte 16) : (s.setRegs w).i = s.i := rfl
@[simp] theorem State.setRegs_mem (w : Vector Byte 16) : (s.setRegs w).mem = s.mem := rfl
@[simp] theorem State.setRegs_stack (w : Vector Byte 16) : (s.setRegs w).stack = s.stack := rfl
@[simp] theorem State.setRegs_dt (w : Vector Byte 16) : (s.setRegs w).dt = s.dt := rfl
@[simp] theorem State.setRegs_st (w : Vector Byte 16) : (s.setRegs w).st = s.st := rfl
@[simp] theorem State.setRegs_display (w : Vector Byte 16) : (s.setRegs w).display = s.display := rfl
@[simp] theorem State.setRegs_key (w : Vector Byte 16) : (s.setRegs w).key = s.key := rfl
@[simp] theorem State.setRegs_pressedCount (w : Vector Byte 16) : (s.setRegs w).pressedCount = s.pressedCount := rfl
@[simp] theorem State.setRegs_mode (w : Vector Byte 16) : (s.setRegs w).mode = s.mode := rfl
@[simp] theorem State.setRegs_loaderOpen (w : Vector Byte 16) : (s.setRegs w).loaderOpen = s.loaderOpen := rfl
@[simp] theorem State.setRegs_env (w : Vector Byte 16) : (s.setRegs w).env = s.env := rfl
@[simp] theorem State.readByte_setRegs (w : Vector Byte 16) (c : Nat) : (s.setRegs w).readByte c = s.readByte c := rfl
@[simp] theorem State.getKey_setRegs (w : Vector Byte 16) (c : Nibble) : (s.setRegs w).getKey c = s.getKey c := rfl

/-! `setV` -/

@[simp] theorem State.setV_v (x : Nibble) (b : Byte) : (s.setV x b).v = s.v.set x.toNat b x.isLt := rfl
@[simp] theorem State.setV_pc (x : Nibble) (b : Byte) : (s.setV x b).pc = s.pc := rfl
@[simp] theorem State.setV_i (x : Nibble) (b : Byte) : (s.setV x b).i = s.i := rfl
@[simp] theorem State.setV_mem (x : Nibble) (b : Byte) : (s.setV x b).mem = s.mem := rfl
@[simp] theorem State.setV_stack (x : Nibble) (b : Byte) : (s.setV x b).stack = s.stack := rfl
@[simp] theorem State.setV_dt (x : Nibble) (b : Byte) : (s.setV x b).dt = s.dt := rfl
@[simp] theorem State.setV_st (x : Nibble) (b : Byte) : (s.setV x b).st = s.st := rfl
@[simp] theorem State.setV_display (x : Nibble) (b : Byte) : (s.setV x b).display = s.display := rfl
@[simp] theorem State.setV_key (x : Nibble) (b : Byte) : (s.setV x b).key = s.key := rfl
@[simp] theorem State.setV_pressedCount (x : Nibble) (b : Byte) : (s.setV x b).pressedCount = s.pressedCount := rfl
@[simp] theorem State.setV_mode (x : Nibble) (b : Byte) : (s.setV x b).mode = s.mode := rfl
@[simp] theorem State.setV_loaderOpen (x : Nibble) (b : Byte) : (s.setV x b).loaderOpen = s.loaderOpen := rfl
@[simp] theorem State.setV_env (x : Nibble) (b : Byte) : (s.setV x b).env = s.env := rfl
@[simp] theorem State.readByte_setV (x : Nibble) (b : Byte) (c : Nat) : (s.setV x b).readByte c = s.readByte c := rfl
@[simp] theorem State.getKey_setV (x : Nibble) (b : Byte) (c : Nibble) : (s.setV x b).getKey c = s.getKey c := rfl

/-! `setPc` -/

@[simp] theorem State.setPc_v (a : Word) : (s.setPc a).v = s.v := rfl
@[simp] theorem State.setPc_pc (a : Word) : (s.setPc a).pc = a := rfl
@[simp] theorem State.setPc_i (a : Word) : (s.setPc a).i = s.i := rfl
@[simp] theorem State.setPc_mem (a : Word) : (s.setPc a).mem = s.mem := rfl
@[simp] theorem State.setPc_stack (a : Word) : (s.setPc a).stack = s.stack := rfl
@[simp] theorem State.setPc_dt (a : Word) : (s.setPc a).dt = s.dt := rfl
@[simp] theorem State.setPc_st (a : Word) : (s.setPc a).st = s.st := rfl
@[simp] theorem State.setPc_display (a : Word) : (s.setPc a).display = s.display := rfl
@[simp] theorem State.setPc_key (a : Word) : (s.setPc a).key = s.key := rfl
@[simp] theorem State.setPc_pressedCount (a : Word) : (s.setPc a).pressedCount = s.pressedCount := rfl
@[simp] theorem State.setPc_mode (a : Word) : (s.setPc a).mode = s.mode := rfl
@[simp] theorem State.setPc_loaderOpen (a : Word) : (s.setPc a).loaderOpen = s.loaderOpen := rfl
@[simp] theorem State.setPc_env (a : Word) : (s.setPc a).env = s.env := rfl
@[simp] theorem State.getV_setPc (a : Word) (y : Nibble) : (s.setPc a).getV y = s.getV y := rfl
@[simp] theorem State.readByte_setPc (a : Word) (c : Nat) : (s.setPc a).readByte c = s.readByte c := rfl
@[simp] theorem State.getKey_setPc (a : Word) (c : Nibble) : (s.setPc a).getKey c = s.getKey c := rfl

/-! `setI` -/

@[simp] theorem State.setI_v (a : Word) : (s.setI a).v = s.v := rfl
@[simp] theorem State.setI_pc (a : Word) : (s.setI a).pc = s.pc := rfl
@[simp] theorem State.setI_i (a : Word) : (s.setI a).i = a := rfl
@[simp] theorem State.setI_mem (a : Word) : (s.setI a).mem = s.mem := rfl
@[simp] theorem State.setI_stack (a : Word) : (s.setI a).stack = s.stack := rfl
@[simp] theorem State.setI_dt (a : Word) : (s.setI a).dt = s.dt := rfl
@[simp] theorem State.setI_st (a : Word) : (s.setI a).st = s.st := rfl
@[simp] theorem State.setI_display (a : Word) : (s.setI a).display = s.display := rfl
@[simp] theorem State.setI_key (a : Word) : (s.setI a).key = s.key := rfl
@[simp] theorem State.setI_pressedCount (a : Word) : (s.setI a).pressedCount = s.pressedCount := rfl
@[simp] theorem State.setI_mode (a : Word) : (s.setI a).mode = s.mode := rfl
@[simp] theorem State.setI_loaderOpen (a : Word) : (s.setI a).loaderOpen = s.loaderOpen := rfl
@[simp] theorem State.setI_env (a : Word) : (s.setI a).env = s.env := rfl
@[simp] theorem State.getV_setI (a : Word) (y : Nibble) : (s.setI a).getV y = s.getV y := rfl
@[simp] theorem State.readByte_setI (a : Word) (c : Nat) : (s.setI a).readByte c = s.readByte c := rfl
@[simp] theorem State.getKey_setI (a : Word) (c : Nibble) : (s.setI a).getKey c = s.getKey c := rfl

/-! `setMem` -/

@[simp] theorem State.setMem_v (m : Memory) : (s.setMem m).v = s.v := rfl
@[simp] theorem State.setMem_pc (m : Memory) : (s.setMem m).pc = s.pc := rfl
@[simp] theorem State.setMem_i (m : Memory) : (s.setMem m).i = s.i := rfl
@[simp] theorem State.setMem_mem (m : Memory) : (s.setMem m).mem = m := rfl
@[simp] theorem State.setMem_stack (m : Memory) : (s.setMem m).stack = s.stack := rfl
@[simp] theorem State.setMem_dt (m : Memory) : (s.setMem m).dt = s.dt := rfl
@[simp] theorem State.setMem_st (m : Memory) : (s.setMem m).st = s.st := rfl
@[simp] theorem State.setMem_display (m : Memory) : (s.setMem m).display = s.display := rfl
@[simp] theorem State.setMem_key (m : Memory) : (s.setMem m).key = s.key := rfl
@[simp] theorem State.setMem_pressedCount (m : Memory) : (s.setMem m).pressedCount = s.pressedCount := rfl
@[simp] theorem State.setMem_mode (m : Memory) : (s.setMem m).mode = s.mode := rfl
@[simp] theorem State.setMem_loaderOpen (m : Memory) : (s.setMem m).loaderOpen = s.loaderOpen := rfl
@[simp] theorem State.setMem_env (m : Memory) : (s.setMem m).env = s.env := rfl
@[simp] theorem State.getV_setMem (m : Memory) (y : Nibble) : (s.setMem m).getV y = s.getV y := rfl
@[simp] theorem State.getKey_setMem (m : Memory) (c : Nibble) : (s.setMem m).getKey c = s.getKey c := rfl

/-! `setStack` -/

@[simp] theorem State.setStack_v (l : List Word) : (s.setStack l).v = s.v := rfl
@[simp] theorem State.setStack_pc (l : List Word) : (s.setStack l).pc = s.pc := rfl
@[simp] theorem State.setStack_i (l : List Word) : (s.setStack l).i = s.i := rfl
@[simp] theorem State.setStack_mem (l : List Word) : (s.setStack l).mem = s.mem := rfl
@[simp] theorem State.setStack_stack (l : List Word) : (s.setStack l).stack = l := rfl
@[simp] theorem State.setStack_dt (l : List Word) : (s.setStack l).dt = s.dt := rfl
@[simp] theorem State.setStack_st (l : List Word) : (s.setStack l).st = s.st := rfl
@[simp] theorem State.setStack_display (l : List Word) : (s.setStack l).display = s.display := rfl
@[simp] theorem State.setStack_key (l : List Word) : (s.setStack l).key = s.key := rfl
@[simp] theorem State.setStack_pressedCount (l : List Word) : (s.setStack l).pressedCount = s.pressedCount := rfl
@[simp] theorem State.setStack_mode (l : List Word) : (s.setStack l).mode = s.mode := rfl
@[simp] theorem State.setStack_loaderOpen (l : List Word) : (s.setStack l).loaderOpen = s.loaderOpen := rfl
@[simp] theorem State.setStack_env (l : List Word) : (s.setStack l).env = s.env := rfl
@[simp] theorem State.getV_setStack (l : List Word) (y : Nibble) : (s.setStack l).getV y = s.getV y := rfl
@[simp] theorem State.readByte_setStack (l : List Word) (c : Nat) : (s.setStack l).readByte c = s.readByte c := rfl
@[simp] theorem State.getKey_setStack (l : List Word) (c : Nibble) : (s.setStack l).getKey c = s.getKey c := rfl

/-! `setDt` -/

@[simp] theorem State.setDt_v (b : Byte) : (s.setDt b).v = s.v := rfl
@[simp] theorem State.setDt_pc (b : Byte) : (s.setDt b).pc = s.pc := rfl
@[simp] theorem State.setDt_i (b : Byte) : (s.setDt b).i = s.i := rfl
@[simp] theorem State.setDt_mem (b : Byte) : (s.setDt b).mem = s.mem := rfl
@[simp] theorem State.setDt_stack (b : Byte) : (s.setDt b).stack = s.stack := rfl
@[simp] theorem State.setDt_dt (b : Byte) : (s.setDt b).dt = b := rfl
@[simp] theorem State.setDt_st (b : Byte) : (s.setDt b).st = s.st := rfl
@[simp] theorem State.setDt_display (b : Byte) : (s.setDt b).display = s.display := rfl
@[simp] theorem State.setDt_key (b : Byte) : (s.setDt b).key = s.key := rfl
@[simp] theorem State.setDt_pressedCount (b : Byte) : (s.setDt b).pressedCount = s.pressedCount := rfl
@[simp] theorem State.setDt_mode (b : Byte) : (s.setDt b).mode = s.mode := rfl
@[simp] theorem State.setDt_loaderOpen (b : Byte) : (s.setDt b).loaderOpen = s.loaderOpen := rfl
@[simp] theorem State.setDt_env (b : Byte) : (s.setDt b).env = s.env := rfl
@[simp] theorem State.getV_setDt (b : Byte) (y : Nibble) : (s.setDt b).getV y = s.getV y := rfl
@[simp] theorem State.readByte_setDt (b : Byte) (c : Nat) : (s.setDt b).readByte c = s.readByte c := rfl
@[simp] theorem State.getKey_setDt (b : Byte) (c : Nibble) : (s.setDt b).getKey c = s.getKey c := rfl

/-! `setSt` -/

@[simp] theorem State.setSt_v (b : Byte) : (s.setSt b).v = s.v := rfl
@[simp] theorem State.setSt_pc (b : Byte) : (s.setSt b).pc = s.pc := rfl
@[simp] theorem State.setSt_i (b : Byte) : (s.setSt b).i = s.i := rfl
@[simp] theorem State.setSt_mem (b : Byte) : (s.setSt b).mem = s.mem := rfl
@[simp] theorem State.setSt_stack (b : Byte) : (s.setSt b).stack = s.stack := rfl
@[simp] theorem State.setSt_dt (b : Byte) : (s.setSt b).dt = s.dt := rfl
@[simp] theorem State.setSt_st (b : Byte) : (s.setSt b).st = b := rfl
@[simp] theorem State.setSt_display (b : Byte) : (s.setSt b).display = s.display := rfl
@[simp] theorem State.setSt_key (b : Byte) : (s.setSt b).key = s.key := rfl
@[simp] theorem State.setSt_pressedCount (b : Byte) : (s.setSt b).pressedCount = s.pressedCount := rfl
@[simp] theorem State.setSt_mode (b : Byte) : (s.setSt b).mode = s.mode := rfl
@[simp] theorem State.setSt_loaderOpen (b : Byte) : (s.setSt b).loaderOpen = s.loaderOpen := rfl
@[simp] theorem State.setSt_env (b : Byte) : (s.setSt b).env = s.env := rfl
@[simp] theorem State.getV_setSt (b : Byte) (y : Nibble) : (s.setSt b).getV y = s.getV y := rfl
@[simp] theorem State.readByte_setSt (b : Byte) (c : Nat) : (s.setSt b).readByte c = s.readByte c := rfl
@[simp] theorem State.getKey_setSt (b : Byte) (c : Nibble) : (s.setSt b).getKey c = s.getKey c := rfl

/-! `setDisplay` -/

@[simp] theorem State.setDisplay_v (d : Display) : (s.setDisplay d).v = s.v := rfl
@[simp] theorem State.setDisplay_pc (d : Display) : (s.setDisplay d).pc = s.pc := rfl
@[simp] theorem State.setDisplay_i (d : Display) : (s.setDisplay d).i = s.i := rfl
@[simp] theorem State.setDisplay_mem (d : Display) : (s.setDisplay d).mem = s.mem := rfl
@[simp] theorem State.setDisplay_stack (d : Display) : (s.setDisplay d).stack = s.stack := rfl
@[simp] theorem State.setDisplay_dt (d : Display) : (s.setDisplay d).dt = s.dt := rfl
@[simp] theorem State.setDisplay_st (d : Display) : (s.setDisplay d).st = s.st := rfl
@[simp] theorem State.setDisplay_display (d : Display) : (s.setDisplay d).display = d := rfl
@[simp] theorem State.setDisplay_key (d : Display) : (s.setDisplay d).key = s.key := rfl
@[simp] theorem State.setDisplay_pressedCount (d : Display) : (s.setDisplay d).pressedCount = s.pressedCount := rfl
@[simp] theorem State.setDisplay_mode (d : Display) : (s.setDisplay d).mode = s.mode := rfl
@[simp] theorem State.setDisplay_loaderOpen (d : Display) : (s.setDisplay d).loaderOpen = s.loaderOpen := rfl
@[simp] theorem State.setDisplay_env (d : Display) : (s.setDisplay d).env = s.env := rfl
@[simp] theorem State.getV_setDisplay (d : Display) (y : Nibble) : (s.setDisplay d).getV y = s.getV y := rfl
@[simp] theorem State.readByte_setDisplay (d : Display) (c : Nat) : (s.setDisplay d).readByte c = s.readByte c := rfl
@[simp] theorem State.getKey_setDisplay (d : Display) (c : Nibble) : (s.setDisplay d).getKey c = s.getKey c := rfl

/-! `setKey` -/

@[simp] theorem State.setKey_v (k : Nibble) (b : Bool) : (s.setKey k b).v = s.v := rfl
@[simp] theorem State.setKey_pc (k : Nibble) (b : Bool) : (s.setKey k b).pc = s.pc := rfl
@[simp] theorem State.setKey_i (k : Nibble) (b : Bool) : (s.setKey k b).i = s.i := rfl
@[simp] theorem State.setKey_mem (k : Nibble) (b : Bool) : (s.setKey k b).mem = s.mem := rfl
@[simp] theorem State.setKey_stack (k : Nibble) (b : Bool) : (s.setKey k b).stack = s.stack := rfl
@[simp] theorem State.setKey_dt (k : Nibble) (b : Bool) : (s.setKey k b).dt = s.dt := rfl
@[simp] theorem State.setKey_st (k : Nibble) (b : Bool) : (s.setKey k b).st = s.st := rfl
@[simp] theorem State.setKey_display (k : Nibble) (b : Bool) : (s.setKey k b).display = s.display := rfl
@[simp] theorem State.setKey_key (k : Nibble) (b : Bool) : (s.setKey k b).key = s.key.set k.toNat b k.isLt := rfl
@[simp] theorem State.setKey_pressedCount (k : Nibble) (b : Bool) : (s.setKey k b).pressedCount = s.pressedCount := rfl
@[simp] theorem State.setKey_mode (k : Nibble) (b : Bool) : (s.setKey k b).mode = s.mode := rfl
@[simp] theorem State.setKey_loaderOpen (k : Nibble) (b : Bool) : (s.setKey k b).loaderOpen = s.loaderOpen := rfl
@[simp] theorem State.setKey_env (k : Nibble) (b : Bool) : (s.setKey k b).env = s.env := rfl
@[simp] theorem State.getV_setKey (k : Nibble) (b : Bool) (y : Nibble) : (s.setKey k b).getV y = s.getV y := rfl
@[simp] theorem State.readByte_setKey (k : Nibble) (b : Bool) (c : Nat) : (s.setKey k b).readByte c = s.readByte c := rfl

/-! `setPressedCount` -/

@[simp] theorem State.setPressedCount_v (n : Nat) : (s.setPressedCount n).v = s.v := rfl
@[simp] theorem State.setPressedCount_pc (n : Nat) : (s.setPressedCount n).pc = s.pc := rfl
@[simp] theorem State.setPressedCount_i (n : Nat) : (s.setPressedCount n).i = s.i := rfl
@[simp] theorem State.setPressedCount_mem (n : Nat) : (s.setPressedCount n).mem = s.mem := rfl
@[simp] theorem State.setPressedCount_stack (n : Nat) : (s.setPressedCount n).stack = s.stack := rfl
@[simp] theorem State.setPressedCount_dt (n : Nat) : (s.setPressedCount n).dt = s.dt := rfl
@[simp] theorem State.setPressedCount_st (n : Nat) : (s.setPressedCount n).st = s.st := rfl
@[simp] theorem State.setPressedCount_display (n : Nat) : (s.setPressedCount n).display = s.display := rfl
@[simp] theorem State.setPressedCount_key (n : Nat) : (s.setPressedCount n).key = s.key := rfl
@[simp] theorem State.setPressedCount_pressedCount (n : Nat) : (s.setPressedCount n).pressedCount = n := rfl
@[simp] theorem State.setPressedCount_mode (n : Nat) : (s.setPressedCount n).mode = s.mode := rfl
@[simp] theorem State.setPressedCount_loaderOpen (n : Nat) : (s.setPressedCount n).loaderOpen = s.loaderOpen := rfl
@[simp] theorem State.setPressedCount_env (n : Nat) : (s.setPressedCount n).env = s.env := rfl
@[simp] theorem State.getV_setPressedCount (n : Nat) (y : Nibble) : (s.setPressedCount n).getV y = s.getV y := rfl
@[simp] theorem State.readByte_setPressedCount (n : Nat) (c : Nat) : (s.setPressedCount n).readByte c = s.readByte c := rfl
@[simp] theorem State.getKey_setPressedCount (n : Nat) (c : Nibble) : (s.setPressedCount n).getKey c = s.getKey c := rfl

/-! `setMode` -/

@[simp] theorem State.setMode_v (m : Mode) : (s.setMode m).v = s.v := rfl
@[simp] theorem State.setMode_pc (m : Mode) : (s.setMode m).pc = s.pc := rfl
@[simp] theorem State.setMode_i (m : Mode) : (s.setMode m).i = s.i := rfl
@[simp] theorem State.setMode_mem (m : Mode) : (s.setMode m).mem = s.mem := rfl
@[simp] theorem State.setMode_stack (m : Mode) : (s.setMode m).stack = s.stack := rfl
@[simp] theorem State.setMode_dt (m : Mode) : (s.setMode m).dt = s.dt := rfl
@[simp] theorem State.setMode_st (m : Mode) : (s.setMode m).st = s.st := rfl
@[simp] theorem State.setMode_display (m : Mode) : (s.setMode m).display = s.display := rfl
@[simp] theorem State.setMode_key (m : Mode) : (s.setMode m).key = s.key := rfl
@[simp] theorem State.setMode_pressedCount (m : Mode) : (s.setMode m).pressedCount = s.pressedCount := rfl
@[simp] theorem State.setMode_mode (m : Mode) : (s.setMode m).mode = m := rfl
@[simp] theorem State.setMode_loaderOpen (m : Mode) : (s.setMode m).loaderOpen = s.loaderOpen := rfl
@[simp] theorem State.setMode_env (m : Mode) : (s.setMode m).env = s.env := rfl
@[simp] theorem State.getV_setMode (m : Mode) (y : Nibble) : (s.setMode m).getV y = s.getV y := rfl
@[simp] theorem State.readByte_setMode (m : Mode) (c : Nat) : (s.setMode m).readByte c = s.readByte c := rfl
@[simp] theorem State.getKey_setMode (m : Mode) (c : Nibble) : (s.setMode m).getKey c = s.getKey c := rfl

/-! `closeLoader` -/

@[simp] theorem State.closeLoader_v : (s.closeLoader).v = s.v := rfl
@[simp] theorem State.closeLoader_pc : (s.closeLoader).pc = s.pc := rfl
@[simp] theorem State.closeLoader_i : (s.closeLoader).i = s.i := rfl
@[simp] theorem State.closeLoader_mem : (s.closeLoader).mem = s.mem := rfl
@[simp] theorem State.closeLoader_stack : (s.closeLoader).stack = s.stack := rfl
@[simp] theorem State.closeLoader_dt : (s.closeLoader).dt = s.dt := rfl
@[simp] theorem State.closeLoader_st : (s.closeLoader).st = s.st := rfl
@[simp] theorem State.closeLoader_display : (s.closeLoader).display = s.display := rfl
@[simp] theorem State.closeLoader_key : (s.closeLoader).key = s.key := rfl
@[simp] theorem State.closeLoader_pressedCount : (s.closeLoader).pressedCount = s.pressedCount := rfl
@[simp] theorem State.closeLoader_mode : (s.closeLoader).mode = s.mode := rfl
@[simp] theorem State.closeLoader_loaderOpen : (s.closeLoader).loaderOpen = false := rfl
@[simp] theorem State.closeLoader_env : (s.closeLoader).env = s.env := rfl
@[simp] theorem State.getV_closeLoader (y : Nibble) : (s.closeLoader).getV y = s.getV y := rfl
@[simp] theorem State.readByte_closeLoader (c : Nat) : (s.closeLoader).readByte c = s.readByte c := rfl
@[simp] theorem State.getKey_closeLoader (c : Nibble) : (s.closeLoader).getKey c = s.getKey c := rfl

/-! `setEnv` -/

@[simp] theorem State.setEnv_v (e : Env) : (s.setEnv e).v = s.v := rfl
@[simp] theorem State.setEnv_pc (e : Env) : (s.setEnv e).pc = s.pc := rfl
@[simp] theorem State.setEnv_i (e : Env) : (s.setEnv e).i = s.i := rfl
@[simp] theorem State.setEnv_mem (e : Env) : (s.setEnv e).mem = s.mem := rfl
@[simp] theorem State.setEnv_stack (e : Env) : (s.setEnv e).stack = s.stack := rfl
@[simp] theorem State.setEnv_dt (e : Env) : (s.setEnv e).dt = s.dt := rfl
@[simp] theorem State.setEnv_st (e : Env) : (s.setEnv e).st = s.st := rfl
@[simp] theorem State.setEnv_display (e : Env) : (s.setEnv e).display = s.display := rfl
@[simp] theorem State.setEnv_key (e : Env) : (s.setEnv e).key = s.key := rfl
@[simp] theorem State.setEnv_pressedCount (e : Env) : (s.setEnv e).pressedCount = s.pressedCount := rfl
@[simp] theorem State.setEnv_mode (e : Env) : (s.setEnv e).mode = s.mode := rfl
@[simp] theorem State.setEnv_loaderOpen (e : Env) : (s.setEnv e).loaderOpen = s.loaderOpen := rfl
@[simp] theorem State.setEnv_env (e : Env) : (s.setEnv e).env = e := rfl
@[simp] theorem State.getV_setEnv (e : Env) (y : Nibble) : (s.setEnv e).getV y = s.getV y := rfl
@[simp] theorem State.readByte_setEnv (e : Env) (c : Nat) : (s.setEnv e).readByte c = s.readByte c := rfl
@[simp] theorem State.getKey_setEnv (e : Env) (c : Nibble) : (s.setEnv e).getKey c = s.getKey c := rfl

/-! `setSchedule` -/

@[simp] theorem State.setSchedule_v (l : List Input) : (s.setSchedule l).v = s.v := rfl
@[simp] theorem State.setSchedule_pc (l : List Input) : (s.setSchedule l).pc = s.pc := rfl
@[simp] theorem State.setSchedule_i (l : List Input) : (s.setSchedule l).i = s.i := rfl
@[simp] theorem State.setSchedule_mem (l : List Input) : (s.setSchedule l).mem = s.mem := rfl
@[simp] theorem State.setSchedule_stack (l : List Input) : (s.setSchedule l).stack = s.stack := rfl
@[simp] theorem State.setSchedule_dt (l : List Input) : (s.setSchedule l).dt = s.dt := rfl
@[simp] theorem State.setSchedule_st (l : List Input) : (s.setSchedule l).st = s.st := rfl
@[simp] theorem State.setSchedule_display (l : List Input) : (s.setSchedule l).display = s.display := rfl
@[simp] theorem State.setSchedule_key (l : List Input) : (s.setSchedule l).key = s.key := rfl
@[simp] theorem State.setSchedule_pressedCount (l : List Input) : (s.setSchedule l).pressedCount = s.pressedCount := rfl
@[simp] theorem State.setSchedule_mode (l : List Input) : (s.setSchedule l).mode = s.mode := rfl
@[simp] theorem State.setSchedule_loaderOpen (l : List Input) : (s.setSchedule l).loaderOpen = s.loaderOpen := rfl
@[simp] theorem State.setSchedule_env (l : List Input) : (s.setSchedule l).env = { s.env with schedule := l } := rfl
@[simp] theorem State.getV_setSchedule (l : List Input) (y : Nibble) : (s.setSchedule l).getV y = s.getV y := rfl
@[simp] theorem State.readByte_setSchedule (l : List Input) (c : Nat) : (s.setSchedule l).readByte c = s.readByte c := rfl
@[simp] theorem State.getKey_setSchedule (l : List Input) (c : Nibble) : (s.setSchedule l).getKey c = s.getKey c := rfl

/-! `emit` -/

@[simp] theorem State.emit_v (o : Output) : (s.emit o).v = s.v := rfl
@[simp] theorem State.emit_pc (o : Output) : (s.emit o).pc = s.pc := rfl
@[simp] theorem State.emit_i (o : Output) : (s.emit o).i = s.i := rfl
@[simp] theorem State.emit_mem (o : Output) : (s.emit o).mem = s.mem := rfl
@[simp] theorem State.emit_stack (o : Output) : (s.emit o).stack = s.stack := rfl
@[simp] theorem State.emit_dt (o : Output) : (s.emit o).dt = s.dt := rfl
@[simp] theorem State.emit_st (o : Output) : (s.emit o).st = s.st := rfl
@[simp] theorem State.emit_display (o : Output) : (s.emit o).display = s.display := rfl
@[simp] theorem State.emit_key (o : Output) : (s.emit o).key = s.key := rfl
@[simp] theorem State.emit_pressedCount (o : Output) : (s.emit o).pressedCount = s.pressedCount := rfl
@[simp] theorem State.emit_mode (o : Output) : (s.emit o).mode = s.mode := rfl
@[simp] theorem State.emit_loaderOpen (o : Output) : (s.emit o).loaderOpen = s.loaderOpen := rfl
@[simp] theorem State.emit_env (o : Output) : (s.emit o).env = { s.env with outputs := o :: s.env.outputs } := rfl
@[simp] theorem State.getV_emit (o : Output) (y : Nibble) : (s.emit o).getV y = s.getV y := rfl
@[simp] theorem State.readByte_emit (o : Output) (c : Nat) : (s.emit o).readByte c = s.readByte c := rfl
@[simp] theorem State.getKey_emit (o : Output) (c : Nibble) : (s.emit o).getKey c = s.getKey c := rfl

/-! `countDraw` -/

@[simp] theorem State.countDraw_v : (s.countDraw).v = s.v := rfl
@[simp] theorem State.countDraw_pc : (s.countDraw).pc = s.pc := rfl
@[simp] theorem State.countDraw_i : (s.countDraw).i = s.i := rfl
@[simp] theorem State.countDraw_mem : (s.countDraw).mem = s.mem := rfl
@[simp] theorem State.countDraw_stack : (s.countDraw).stack = s.stack := rfl
@[simp] theorem State.countDraw_dt : (s.countDraw).dt = s.dt := rfl
@[simp] theorem State.countDraw_st : (s.countDraw).st = s.st := rfl
@[simp] theorem State.countDraw_display : (s.countDraw).display = s.display := rfl
@[simp] theorem State.countDraw_key : (s.countDraw).key = s.key := rfl
@[simp] theorem State.countDraw_pressedCount : (s.countDraw).pressedCount = s.pressedCount := rfl
@[simp] theorem State.countDraw_mode : (s.countDraw).mode = s.mode := rfl
@[simp] theorem State.countDraw_loaderOpen : (s.countDraw).loaderOpen = s.loaderOpen := rfl
@[simp] theorem State.countDraw_env : (s.countDraw).env = { s.env with draws := s.env.draws + 1 } := rfl
@[simp] theorem State.getV_countDraw (y : Nibble) : (s.countDraw).getV y = s.getV y := rfl
@[simp] theorem State.readByte_countDraw (c : Nat) : (s.countDraw).readByte c = s.readByte c := rfl
@[simp] theorem State.getKey_countDraw (c : Nibble) : (s.countDraw).getKey c = s.getKey c := rfl

/-! ### Reading a register after writing one -/

theorem Nibble.toNat_ne {x y : Nibble} (h : x ≠ y) : x.toNat ≠ y.toNat := fun e => h (BitVec.eq_of_toNat_eq e)

@[simp] theorem State.getV_setV_same (x : Nibble) (b : Byte) : (s.setV x b).getV x = b := by
  simp [State.getV]

theorem State.getV_setV_other {x y : Nibble} (h : y ≠ x) (b : Byte) : (s.setV x b).getV y = s.getV y := by
  simp [State.getV, (Nibble.toNat_ne h).symm]

theorem State.getV_setV (x y : Nibble) (b : Byte) : (s.setV x b).getV y = if y = x then b else s.getV y := by
  by_cases h : y = x
  · simp [h]
  · simp [h, s.getV_setV_other h]

@[simp] theorem State.getKey_setKey_same (k : Nibble) (b : Bool) : (s.setKey k b).getKey k = b := by
  simp [State.getKey]

theorem State.getKey_setKey_other {k j : Nibble} (h : j ≠ k) (b : Bool) : (s.setKey k b).getKey j = s.getKey j := by
  simp [State.getKey, (Nibble.toNat_ne h).symm]

@[simp] theorem State.sp_setPc (a : Word) : (s.setPc a).sp = s.sp := rfl
@[simp] theorem State.sp_setStack (l : List Word) : (s.setStack l).sp = l.length := rfl

/-- Two register files that read alike at every index are equal. -/
theorem State.regs_ext {s t : State} (h : ∀ y, t.getV y = s.getV y) : t.v = s.v := by
  apply Vector.ext
  intro n hn
  have := h (BitVec.ofNat 4 n)
  simpa [State.getV, Nat.mod_eq_of_lt hn] using this

/-- Two key states that read alike at every key are equal. -/
theorem State.keys_ext {s t : State} (h : ∀ k, t.getKey k = s.getKey k) : t.key = s.key := by
  apply Vector.ext
  intro n hn
  have := h (BitVec.ofNat 4 n)
  simpa [State.getKey, Nat.mod_eq_of_lt hn] using this

/-! ### Frames -/

theorem KeepsAllBut.refl (c : List Part) : KeepsAllBut c s s := by
  intro p _
  cases p <;> simp [Part.same]

theorem KeepsAllBut.mono {s t : State} {c d : List Part} (h : KeepsAllBut c s t) (hcd : ∀ p, p ∈ c → p ∈ d) :
    KeepsAllBut d s t := fun p hp => h p fun hc => hp (hcd p hc)

end Sys2Proof.Machine
end

