-- ==== Sys2Proof/Laws/Memory.lean ====
section
/-! SUPPORT. Memory: read after write, and every memory operation keeps the canonical form (R14, R41, R44). -/

namespace Sys2Proof.Machine

theorem readMem_eraseCell (m : Memory) (a b : Nat) :
    readMem (eraseCell m a) b = if b = a then unlistedByte a else readMem m b := by
  induction m with
  | nil => by_cases h : b = a <;> simp [eraseCell, readMem, h]
  | cons c rest ih =>
    obtain ⟨d, w⟩ := c
    simp only [eraseCell] at ih ⊢
    by_cases hd : d = a
    · subst hd
      by_cases h : b = d
      · simpa [h] using ih
      · simpa [readMem, h] using ih
    · by_cases h : b = a
      · subst h
        simpa [readMem, hd, Ne.symm hd] using ih
      · by_cases hb : b = d <;> simp_all [readMem]

theorem readMem_insertCell (m : Memory) (a b : Nat) (v : Byte) (hm : ∀ c ∈ m, c.1 ≠ a) :
    readMem (insertCell m a v) b = if b = a then v else readMem m b := by
  induction m with
  | nil => simp [insertCell, readMem]
  | cons c rest ih =>
    obtain ⟨d, w⟩ := c
    have hd : d ≠ a := hm (d, w) (by simp)
    have ih := ih fun c hc => hm c (by simp [hc])
    by_cases hlt : a < d
    · simp [insertCell, readMem, hlt]
    · rw [insertCell, if_neg hlt]
      by_cases hb : b = d
      · subst hb
        simp [readMem, hd]
      · simp only [readMem, if_neg hb, ih]

theorem eraseCell_addr_ne (m : Memory) (a : Nat) : ∀ c ∈ eraseCell m a, c.1 ≠ a := by
  intro c hc
  simp [eraseCell] at hc
  exact hc.2

/-- A read after a write gives the byte written at that address and the old byte at every other. -/
theorem readMem_writeMem (m : Memory) (a b : Nat) (v : Byte) :
    readMem (writeMem m a v) b = if b = a then v else readMem m b := by
  unfold writeMem
  split
  · next h => rw [readMem_eraseCell, h]
  · rw [readMem_insertCell _ _ _ _ (eraseCell_addr_ne m a), readMem_eraseCell]
    by_cases hb : b = a <;> simp [hb]

/-- Writing bytes in ascending order: byte `j` lands at `a + j`, every other address keeps its byte. -/
theorem readMem_writeBytes (l : List Byte) (m : Memory) (a b : Nat) :
    readMem (writeBytes m a l) b = if h : a ≤ b ∧ b - a < l.length then l[b - a]'h.2 else readMem m b := by
  induction l generalizing m a with
  | nil => simp [writeBytes]
  | cons v rest ih =>
    rw [writeBytes, ih, readMem_writeMem]
    by_cases hb : b = a
    · subst hb
      simp
    · by_cases h : a + 1 ≤ b ∧ b - (a + 1) < rest.length
      · have h2 : a ≤ b ∧ b - a < (v :: rest).length := by simp; omega
        have h3 : b - a = (b - (a + 1)) + 1 := by omega
        simp only [h, h2, and_self, dite_true]
        simp [h3]
      · have h2 : ¬ (a ≤ b ∧ b - a < (v :: rest).length) := by simp at h ⊢; omega
        rw [dif_neg h, dif_neg h2, if_neg hb]

theorem eraseCell_wf {m : Memory} (h : m.wf) (a : Nat) : Memory.wf (eraseCell m a) :=
  ⟨h.1.filter _, fun c hc => h.2 c (List.mem_of_mem_filter hc)⟩

theorem mem_insertCell {m : Memory} {a : Nat} {v : Byte} {c : Host.Cell} :
    c ∈ insertCell m a v ↔ c = (a, v) ∨ c ∈ m := by
  induction m with
  | nil => simp [insertCell]
  | cons d rest ih =>
    obtain ⟨b, w⟩ := d
    unfold insertCell
    split
    · simp
    · simp [ih]; tauto

theorem insertCell_wf {m : Memory} (h : m.wf) {a : Nat} {v : Byte} (ha : a < Config.memSize)
    (hv : v ≠ unlistedByte a) (hm : ∀ c ∈ m, c.1 ≠ a) : Memory.wf (insertCell m a v) := by
  refine ⟨?_, fun c hc => ?_⟩
  · obtain ⟨hp, -⟩ := h
    induction m with
    | nil => simp [insertCell]
    | cons d rest ih =>
      obtain ⟨b, w⟩ := d
      rw [List.pairwise_cons] at hp
      unfold insertCell
      split
      · next hlt =>
        refine List.pairwise_cons.2 ⟨fun c hc => ?_, List.pairwise_cons.2 hp⟩
        rcases List.mem_cons.1 hc with rfl | hc
        · exact hlt
        · exact Nat.lt_trans hlt (hp.1 c hc)
      · next hlt =>
        refine List.pairwise_cons.2 ⟨fun c hc => ?_, ih (fun c hc => hm c (by simp [hc])) hp.2⟩
        rcases mem_insertCell.1 hc with rfl | hc
        · have : b ≠ a := hm (b, w) (by simp)
          simp only; omega
        · exact hp.1 c hc
  · rcases mem_insertCell.1 hc with rfl | hc
    · exact ⟨ha, hv⟩
    · exact h.2 c hc

/-- A write inside the address space keeps the canonical form. -/
theorem writeMem_wf {m : Memory} (h : m.wf) {a : Nat} (ha : a < Config.memSize) (v : Byte) :
    Memory.wf (writeMem m a v) := by
  unfold writeMem
  split
  · exact eraseCell_wf h a
  · next hv => exact insertCell_wf (eraseCell_wf h a) ha hv (eraseCell_addr_ne m a)

/-- Writing bytes inside the address space keeps the canonical form. -/
theorem writeBytes_wf {l : List Byte} {m : Memory} (h : m.wf) {a : Nat} (ha : a + l.length ≤ Config.memSize) :
    Memory.wf (writeBytes m a l) := by
  induction l generalizing m a with
  | nil => exact h
  | cons v rest ih =>
    simp only [List.length_cons] at ha
    exact ih (writeMem_wf h (by omega) v) (by omega)

/-- The memory of the reset state is in canonical form. -/
theorem reset_mem_wf : Memory.wf State.reset.mem := by
  simp [State.reset, Memory.wf]

/-- A byte outside the written bytes reads as before. -/
theorem readMem_writeBytes_outside {l : List Byte} {m : Memory} {a b : Nat} (h : b < a ∨ a + l.length ≤ b) :
    readMem (writeBytes m a l) b = readMem m b := by
  rw [readMem_writeBytes]
  have : ¬ (a ≤ b ∧ b - a < l.length) := by omega
  simp [this]

end Sys2Proof.Machine
end

