-- ==== Sys2Proof/Laws/Ops.lean ====
section
/-! SUPPORT. One lemma per shared operation, saying everything it can do. -/

namespace Sys2Proof.Machine

/-- Entering a fatal condition changes `mode` and nothing else (R171). -/
theorem enterFatal_haltsWith (kind : FatalKind) (word addr : Option Word) (detail : Option Nat) (s : State) :
    ∃ t, enterFatal kind word addr detail s = .next t ∧ HaltsWith s t kind word addr detail :=
  ⟨_, rfl, rfl, by intro p hp; cases p <;> simp_all [Part.same]⟩

/-- Raising from an instruction records its word and the address it was fetched from (R21, R171). -/
theorem raise_haltsWith (kind : FatalKind) (i : Instr) (detail : Option Nat) (s : State) :
    ∃ t, raise kind i detail s = .next t ∧ HaltsWith s t kind (some (encode i)) (some (s.pc - 2)) detail :=
  enterFatal_haltsWith _ _ _ _ _

/-- An access inside memory answers its result. -/
theorem checkedAccess_inside {i : Instr} {n : Nat} {s ok : State} (h : ¬ (0 < n ∧ 4095 < s.base + n - 1)) :
    checkedAccess i n s ok = .next ok := by
  rw [checkedAccess, if_neg h]

/-- An access above address 4095 is the fatal condition `MemoryOutOfBounds` (R41, R54). -/
theorem checkedAccess_outside {i : Instr} {n : Nat} {s ok : State} (h : 0 < n ∧ 4095 < s.base + n - 1) :
    checkedAccess i n s ok = raise .memoryOutOfBounds i (some (s.base + n - 1)) s := by
  rw [checkedAccess, if_pos h]

/-- A selector up to 15 answers its result. -/
theorem checkedSelector_inside {i : Instr} {x : Nibble} {s : State} {ok : Nibble → State}
    (h : (s.getV x).toNat ≤ 15) : checkedSelector i x s ok = .next (ok ((s.getV x).setWidth 4)) := by
  rw [checkedSelector, if_neg (by omega)]

/-- A selector above 15 is the fatal condition `SelectorOutOfRange`. -/
theorem checkedSelector_outside {i : Instr} {x : Nibble} {s : State} {ok : Nibble → State}
    (h : 15 < (s.getV x).toNat) :
    checkedSelector i x s ok = raise .selectorOutOfRange i (some (s.getV x).toNat) s := by
  rw [checkedSelector, if_pos h]

/-- A call with room on the stack pushes `pc` and goes to its target (R16, R81). -/
theorem callWithin_room {c : Nat} {i : Instr} {a : Word} {s : State} (h : s.sp < c) :
    callWithin c i a s = .next ((s.setStack (s.pc :: s.stack)).setPc a) := by
  rw [callWithin, if_neg (by omega)]

/-- A call with a full stack is the fatal condition `StackOverflow` (R16, R81). -/
theorem callWithin_full {c : Nat} {i : Instr} {a : Word} {s : State} (h : c ≤ s.sp) :
    callWithin c i a s = raise .stackOverflow i none s := by
  rw [callWithin, if_pos h]

/-- A return pops the newest entry (R16, R82). -/
theorem popInto_cons {i : Instr} {s : State} {a : Word} {rest : List Word} (h : s.stack = a :: rest) :
    popInto i s = .next ((s.setStack rest).setPc a) := by
  rw [popInto, h]

/-- A return with an empty stack is the fatal condition `StackUnderflow` (R16, R82). -/
theorem popInto_nil {i : Instr} {s : State} (h : s.stack = []) : popInto i s = raise .stackUnderflow i none s := by
  rw [popInto, h]

/-- The capacity is at least 1 (D6). -/
theorem stackCapacity_pos : 0 < stackCapacity := Nat.succ_pos _

/-! ### The skip -/

theorem skipIf_pc (c : Bool) (s : State) : (skipIf c s).pc = if c then s.pc + 2 else s.pc := by
  cases c <;> rfl

theorem skipIf_keeps (c : Bool) (s : State) : KeepsAllBut [.pc] s (skipIf c s) := by
  intro p hp
  cases c <;> cases p <;> simp_all [skipIf, Part.same]

/-! ### The block of registers -/

theorem registerBlock_length (x : Nibble) (s : State) : (registerBlock x s).length = x.toNat + 1 := by
  have := x.isLt
  simp [registerBlock]; omega

theorem registerBlock_getElem (x : Nibble) (s : State) (j : Nat) (h : j < (registerBlock x s).length)
    (hj : j < 16) : (registerBlock x s)[j] = s.v[j] := by
  simp [registerBlock]

theorem getV_loadBlock (x y : Nibble) (s : State) :
    (loadBlock x s).getV y = if y.toNat ≤ x.toNat then s.readByte (s.base + y.toNat) else s.getV y := by
  simp [loadBlock, State.getV]

theorem advanceIndex_keeps (c : Bool) (x : Nibble) (s : State) : KeepsAllBut [.index] s (advanceIndex c x s) := by
  intro p hp
  cases c <;> cases p <;> simp_all [advanceIndex, Part.same]

/-- Inside memory the advanced index is `I + x + 1`, no reduction takes place (R122). -/
theorem advanceIndex_i {c : Bool} {x : Nibble} {s : State} (h : s.base + x.toNat ≤ 4095) :
    (advanceIndex c x s).i.toNat = if c then s.i.toNat + x.toNat + 1 else s.i.toNat := by
  have := x.isLt
  unfold State.base at h
  cases c
  · simp [advanceIndex]
  · simp [advanceIndex]; omega

/-! ### Flags -/

theorem getV_setFlag_F (s : State) (c : Bool) : (s.setFlag c).getV 0xF = flagByte c := s.getV_setV_same _ _

theorem getV_setFlag_other (s : State) (c : Bool) {y : Nibble} (h : y ≠ 0xF) : (s.setFlag c).getV y = s.getV y :=
  s.getV_setV_other h _

theorem setFlag_keeps (s : State) (c : Bool) : KeepsAllBut [.regs] s (s.setFlag c) := by
  intro p hp
  cases p <;> simp_all [State.setFlag, Part.same]

theorem flagByte_cases (c : Bool) : flagByte c = 0 ∨ flagByte c = 1 := by
  cases c <;> simp [flagByte]

/-! ### The fetch -/

theorem toNat_fetchWord (s : State) :
    (fetchWord s).toNat = 256 * (s.readByte s.pc.toNat).toNat + (s.readByte (s.pc.toNat + 1)).toNat := by
  rw [fetchWord, wordOf, ← Nat.mul_comm, BitVec.toNat_append, ← Nat.shiftLeft_add_eq_or_of_lt (BitVec.isLt _),
    Nat.shiftLeft_eq]

theorem afterFetch_keeps (s : State) : KeepsAllBut [.pc, .loader] s (afterFetch s) := by
  intro p hp
  cases p <;> simp_all [afterFetch, Part.same]

end Sys2Proof.Machine
end

