-- ==== Sys2Proof/Laws/Display.lean ====
section
/-! SUPPORT. The display: what a toggle does to each cell, and what a draw does to each cell and to the collision bit
(R141, R143). -/

namespace Sys2Proof.Machine

/-- A toggle inside the grid inverts its own cell and leaves every other. -/
theorem cellAt_toggleCell (d : Display) {r c : Nat} (hr : r < 32) (hc : c < 64) (row col : Nat) :
    cellAt (toggleCell d r c) row col = (cellAt d row col ^^ decide (row = r ∧ col = c)) := by
  unfold cellAt toggleCell
  rw [dif_pos (show r < 32 ∧ c < 64 from ⟨hr, hc⟩)]
  by_cases h : row < 32 ∧ col < 64
  · rw [dif_pos h, dif_pos h]
    by_cases h1 : r = row
    · subst h1
      by_cases h2 : c = col
      · subst h2; simp
      · simp [h2, Ne.symm h2]
    · simp [h1, Ne.symm h1]
  · rw [dif_neg h, dif_neg h]
    have : ¬ (row = r ∧ col = c) := by omega
    simp [this]

/-- Every cell of the blank display is off. -/
theorem cellAt_blankDisplay (row col : Nat) : cellAt blankDisplay row col = false := by
  unfold cellAt blankDisplay
  split <;> simp

/-- Two displays with the same cells are equal. -/
theorem display_ext {d e : Display} (h : ∀ row < 32, ∀ col < 64, cellAt d row col = cellAt e row col) : d = e := by
  apply Vector.ext
  intro r hr
  apply Vector.ext
  intro c hc
  have := h r hr c hc
  simpa [cellAt, hr, hc] using this

/-- The sprite pixels drawn so far, as a set of cells: what the loop has toggled, and whether it met a lit cell. -/
def DrawnSoFar (covered : Nat → Nat → Bool) (d : Display) (acc : Display × Bool) : Prop :=
  (∀ row < 32, ∀ col < 64, cellAt acc.1 row col = (cellAt d row col ^^ covered row col)) ∧
    (acc.2 = true ↔ ∃ row < 32, ∃ col < 64, covered row col = true ∧ cellAt d row col = true)

/-- One pixel adds its cell, if it was not covered before. -/
theorem drawPixel_drawnSoFar {covered : Nat → Nat → Bool} {d : Display} {acc : Display × Bool}
    (h : DrawnSoFar covered d acc) (x0 row0 : Nat) (b : Byte) (c : Nat) (hnew : covered row0 (x0 + c) = false) :
    DrawnSoFar (fun row col => covered row col || (b.getLsbD (7 - c) && decide (row = row0 ∧ col = x0 + c))) d
      (drawPixel x0 row0 b acc c) := by
  obtain ⟨hcell, hbit⟩ := h
  unfold drawPixel
  split
  · next hp =>
    obtain ⟨hb, hx, hy⟩ := hp
    refine ⟨fun row hrow col hcol => ?_, ?_⟩
    · rw [cellAt_toggleCell _ (by omega) (by omega), hcell row hrow col hcol, hb]
      by_cases he : row = row0 ∧ col = x0 + c
      · obtain ⟨rfl, rfl⟩ := he
        simp [hnew]
      · simp [he]
    · have hlit := hcell row0 (by omega) (x0 + c) (by omega)
      rw [hnew, Bool.xor_false] at hlit
      simp only [Bool.or_eq_true, hbit, hlit, hb, Bool.true_and, decide_eq_true_eq]
      constructor
      · rintro (⟨r, hr, k, hk, h1, h2⟩ | h1)
        · exact ⟨r, hr, k, hk, .inl h1, h2⟩
        · exact ⟨row0, by omega, x0 + c, by omega, .inr ⟨rfl, rfl⟩, h1⟩
      · rintro ⟨r, hr, k, hk, h1 | ⟨rfl, rfl⟩, h2⟩
        · exact .inl ⟨r, hr, k, hk, h1, h2⟩
        · exact .inr h2
  · next hp =>
    have hout : ∀ row < 32, ∀ col < 64, (b.getLsbD (7 - c) && decide (row = row0 ∧ col = x0 + c)) = false := by
      intro row hrow col hcol
      by_cases he : row = row0 ∧ col = x0 + c
      · cases hb : b.getLsbD (7 - c)
        · rfl
        · exact absurd ⟨hb, by omega, by omega⟩ hp
      · simp [he]
    refine ⟨fun row hrow col hcol => ?_, ?_⟩
    · simp only [hcell row hrow col hcol, hout row hrow col hcol, Bool.or_false]
    · rw [hbit]
      constructor
      · rintro ⟨r, hr, k, hk, h1, h2⟩
        exact ⟨r, hr, k, hk, by simp [h1], h2⟩
      · rintro ⟨r, hr, k, hk, h1, h2⟩
        simp only [hout r hr k hk, Bool.or_false] at h1
        exact ⟨r, hr, k, hk, h1, h2⟩

/-- Equal sets of cells may be exchanged. -/
theorem DrawnSoFar.congr {f g : Nat → Nat → Bool} {d : Display} {acc : Display × Bool} (h : DrawnSoFar f d acc)
    (hfg : ∀ row col, g row col = f row col) : DrawnSoFar g d acc := by
  have : g = f := funext fun row => funext fun col => hfg row col
  rw [this]; exact h

/-- The first `k` pixels of a row add their cells, in a row that held none. -/
theorem drawRow_drawnSoFar {covered : Nat → Nat → Bool} {d : Display} {acc : Display × Bool}
    (h : DrawnSoFar covered d acc) (x0 row0 : Nat) (b : Byte) (hnew : ∀ col, covered row0 col = false) (k : Nat) :
    DrawnSoFar
      (fun row col => covered row col ||
        (decide (row = row0 ∧ x0 ≤ col ∧ col - x0 < k) && b.getLsbD (7 - (col - x0)))) d
      ((List.range k).foldl (drawPixel x0 row0 b) acc) := by
  induction k with
  | zero => simpa using h
  | succ k ih =>
    rw [List.range_succ, List.foldl_append]
    refine (drawPixel_drawnSoFar ih x0 row0 b k (by simp [hnew])).congr fun row col => ?_
    by_cases he : row = row0 ∧ col = x0 + k
    · obtain ⟨rfl, rfl⟩ := he
      simp [hnew]
    · have : (row = row0 ∧ x0 ≤ col ∧ col - x0 < k + 1) ↔ (row = row0 ∧ x0 ≤ col ∧ col - x0 < k) := by omega
      simp only [he, this, decide_false, Bool.and_false, Bool.or_false]

/-- A draw of `n` rows toggles exactly the cells its set bits cover, and sees a collision exactly when one of them was
lit. -/
theorem drawSprite_drawnSoFar (m : Memory) (base x0 y0 n : Nat) (d : Display) :
    DrawnSoFar
      (fun row col => decide (y0 ≤ row ∧ row - y0 < n ∧ x0 ≤ col ∧ col - x0 < 8) &&
        (readMem m (base + (row - y0))).getLsbD (7 - (col - x0))) d
      (drawSprite m base x0 y0 n d) := by
  unfold drawSprite
  induction n with
  | zero => simp [DrawnSoFar]
  | succ n ih =>
    rw [List.range_succ, List.foldl_append]
    refine (drawRow_drawnSoFar ih x0 (y0 + n) (readMem m (base + n)) (by simp) 8).congr fun row col => ?_
    by_cases he : row = y0 + n
    · subst he
      simp
    · have : (y0 ≤ row ∧ row - y0 < n + 1 ∧ x0 ≤ col ∧ col - x0 < 8) ↔
          (y0 ≤ row ∧ row - y0 < n ∧ x0 ≤ col ∧ col - x0 < 8) := by omega
      simp only [he, this, false_and, decide_false, Bool.false_and, Bool.or_false]

end Sys2Proof.Machine
end

