-- ==== Sys2Proof/Laws/Effects.lean ====
section
/-! SUPPORT. What the composite updates of the state leave alone, field by field, and the two outcomes of each checked
operation. -/

namespace Sys2Proof.Machine

/-! `skipIf` writes `pc` only (R88). -/

@[simp] theorem skipIf_v (c : Bool) (s : State) : (skipIf c s).v = s.v := by cases c <;> rfl
@[simp] theorem skipIf_i (c : Bool) (s : State) : (skipIf c s).i = s.i := by cases c <;> rfl
@[simp] theorem skipIf_mem (c : Bool) (s : State) : (skipIf c s).mem = s.mem := by cases c <;> rfl
@[simp] theorem skipIf_stack (c : Bool) (s : State) : (skipIf c s).stack = s.stack := by cases c <;> rfl
@[simp] theorem skipIf_dt (c : Bool) (s : State) : (skipIf c s).dt = s.dt := by cases c <;> rfl
@[simp] theorem skipIf_st (c : Bool) (s : State) : (skipIf c s).st = s.st := by cases c <;> rfl
@[simp] theorem skipIf_display (c : Bool) (s : State) : (skipIf c s).display = s.display := by cases c <;> rfl
@[simp] theorem skipIf_key (c : Bool) (s : State) : (skipIf c s).key = s.key := by cases c <;> rfl
@[simp] theorem skipIf_pressedCount (c : Bool) (s : State) : (skipIf c s).pressedCount = s.pressedCount := by cases c <;> rfl
@[simp] theorem skipIf_mode (c : Bool) (s : State) : (skipIf c s).mode = s.mode := by cases c <;> rfl
@[simp] theorem skipIf_loaderOpen (c : Bool) (s : State) : (skipIf c s).loaderOpen = s.loaderOpen := by cases c <;> rfl
@[simp] theorem skipIf_env (c : Bool) (s : State) : (skipIf c s).env = s.env := by cases c <;> rfl
@[simp] theorem getV_skipIf (c : Bool) (s : State) (y : Nibble) : (skipIf c s).getV y = s.getV y := by cases c <;> rfl
@[simp] theorem readByte_skipIf (c : Bool) (s : State) (a : Nat) : (skipIf c s).readByte a = s.readByte a := by cases c <;> rfl

/-! `advanceIndex` writes `I` only (R122, R123). -/

@[simp] theorem advanceIndex_v (c : Bool) (x : Nibble) (s : State) : (advanceIndex c x s).v = s.v := by cases c <;> rfl
@[simp] theorem advanceIndex_pc (c : Bool) (x : Nibble) (s : State) : (advanceIndex c x s).pc = s.pc := by cases c <;> rfl
@[simp] theorem advanceIndex_mem (c : Bool) (x : Nibble) (s : State) : (advanceIndex c x s).mem = s.mem := by cases c <;> rfl
@[simp] theorem advanceIndex_stack (c : Bool) (x : Nibble) (s : State) : (advanceIndex c x s).stack = s.stack := by cases c <;> rfl
@[simp] theorem advanceIndex_dt (c : Bool) (x : Nibble) (s : State) : (advanceIndex c x s).dt = s.dt := by cases c <;> rfl
@[simp] theorem advanceIndex_st (c : Bool) (x : Nibble) (s : State) : (advanceIndex c x s).st = s.st := by cases c <;> rfl
@[simp] theorem advanceIndex_display (c : Bool) (x : Nibble) (s : State) : (advanceIndex c x s).display = s.display := by cases c <;> rfl
@[simp] theorem advanceIndex_key (c : Bool) (x : Nibble) (s : State) : (advanceIndex c x s).key = s.key := by cases c <;> rfl
@[simp] theorem advanceIndex_pressedCount (c : Bool) (x : Nibble) (s : State) : (advanceIndex c x s).pressedCount = s.pressedCount := by cases c <;> rfl
@[simp] theorem advanceIndex_mode (c : Bool) (x : Nibble) (s : State) : (advanceIndex c x s).mode = s.mode := by cases c <;> rfl
@[simp] theorem advanceIndex_loaderOpen (c : Bool) (x : Nibble) (s : State) : (advanceIndex c x s).loaderOpen = s.loaderOpen := by cases c <;> rfl
@[simp] theorem advanceIndex_env (c : Bool) (x : Nibble) (s : State) : (advanceIndex c x s).env = s.env := by cases c <;> rfl
@[simp] theorem getV_advanceIndex (c : Bool) (x : Nibble) (s : State) (y : Nibble) : (advanceIndex c x s).getV y = s.getV y := by cases c <;> rfl
@[simp] theorem readByte_advanceIndex (c : Bool) (x : Nibble) (s : State) (a : Nat) : (advanceIndex c x s).readByte a = s.readByte a := by cases c <;> rfl

/-! `loadBlock` writes registers only (R123). -/

@[simp] theorem loadBlock_pc (x : Nibble) (s : State) : (loadBlock x s).pc = s.pc := rfl
@[simp] theorem loadBlock_i (x : Nibble) (s : State) : (loadBlock x s).i = s.i := rfl
@[simp] theorem loadBlock_mem (x : Nibble) (s : State) : (loadBlock x s).mem = s.mem := rfl
@[simp] theorem loadBlock_stack (x : Nibble) (s : State) : (loadBlock x s).stack = s.stack := rfl
@[simp] theorem loadBlock_dt (x : Nibble) (s : State) : (loadBlock x s).dt = s.dt := rfl
@[simp] theorem loadBlock_st (x : Nibble) (s : State) : (loadBlock x s).st = s.st := rfl
@[simp] theorem loadBlock_display (x : Nibble) (s : State) : (loadBlock x s).display = s.display := rfl
@[simp] theorem loadBlock_key (x : Nibble) (s : State) : (loadBlock x s).key = s.key := rfl
@[simp] theorem loadBlock_pressedCount (x : Nibble) (s : State) : (loadBlock x s).pressedCount = s.pressedCount := rfl
@[simp] theorem loadBlock_mode (x : Nibble) (s : State) : (loadBlock x s).mode = s.mode := rfl
@[simp] theorem loadBlock_loaderOpen (x : Nibble) (s : State) : (loadBlock x s).loaderOpen = s.loaderOpen := rfl
@[simp] theorem loadBlock_env (x : Nibble) (s : State) : (loadBlock x s).env = s.env := rfl
@[simp] theorem readByte_loadBlock (x : Nibble) (s : State) (a : Nat) : (loadBlock x s).readByte a = s.readByte a := rfl

/-! `setFlag` writes `VF` only (R100). -/

@[simp] theorem setFlag_pc (c : Bool) (s : State) : (s.setFlag c).pc = s.pc := rfl
@[simp] theorem setFlag_i (c : Bool) (s : State) : (s.setFlag c).i = s.i := rfl
@[simp] theorem setFlag_mem (c : Bool) (s : State) : (s.setFlag c).mem = s.mem := rfl
@[simp] theorem setFlag_stack (c : Bool) (s : State) : (s.setFlag c).stack = s.stack := rfl
@[simp] theorem setFlag_dt (c : Bool) (s : State) : (s.setFlag c).dt = s.dt := rfl
@[simp] theorem setFlag_st (c : Bool) (s : State) : (s.setFlag c).st = s.st := rfl
@[simp] theorem setFlag_display (c : Bool) (s : State) : (s.setFlag c).display = s.display := rfl
@[simp] theorem setFlag_key (c : Bool) (s : State) : (s.setFlag c).key = s.key := rfl
@[simp] theorem setFlag_pressedCount (c : Bool) (s : State) : (s.setFlag c).pressedCount = s.pressedCount := rfl
@[simp] theorem setFlag_mode (c : Bool) (s : State) : (s.setFlag c).mode = s.mode := rfl
@[simp] theorem setFlag_loaderOpen (c : Bool) (s : State) : (s.setFlag c).loaderOpen = s.loaderOpen := rfl
@[simp] theorem setFlag_env (c : Bool) (s : State) : (s.setFlag c).env = s.env := rfl
@[simp] theorem readByte_setFlag (c : Bool) (s : State) (a : Nat) : (s.setFlag c).readByte a = s.readByte a := rfl

/-! `setVFlag` writes `V[x]`, then `VF` (R100). -/

@[simp] theorem setVFlag_pc (x : Nibble) (b : Byte) (c : Bool) (s : State) : (s.setVFlag x b c).pc = s.pc := rfl
@[simp] theorem setVFlag_i (x : Nibble) (b : Byte) (c : Bool) (s : State) : (s.setVFlag x b c).i = s.i := rfl
@[simp] theorem setVFlag_mem (x : Nibble) (b : Byte) (c : Bool) (s : State) : (s.setVFlag x b c).mem = s.mem := rfl
@[simp] theorem setVFlag_stack (x : Nibble) (b : Byte) (c : Bool) (s : State) : (s.setVFlag x b c).stack = s.stack := rfl
@[simp] theorem setVFlag_dt (x : Nibble) (b : Byte) (c : Bool) (s : State) : (s.setVFlag x b c).dt = s.dt := rfl
@[simp] theorem setVFlag_st (x : Nibble) (b : Byte) (c : Bool) (s : State) : (s.setVFlag x b c).st = s.st := rfl
@[simp] theorem setVFlag_display (x : Nibble) (b : Byte) (c : Bool) (s : State) : (s.setVFlag x b c).display = s.display := rfl
@[simp] theorem setVFlag_key (x : Nibble) (b : Byte) (c : Bool) (s : State) : (s.setVFlag x b c).key = s.key := rfl
@[simp] theorem setVFlag_pressedCount (x : Nibble) (b : Byte) (c : Bool) (s : State) : (s.setVFlag x b c).pressedCount = s.pressedCount := rfl
@[simp] theorem setVFlag_mode (x : Nibble) (b : Byte) (c : Bool) (s : State) : (s.setVFlag x b c).mode = s.mode := rfl
@[simp] theorem setVFlag_loaderOpen (x : Nibble) (b : Byte) (c : Bool) (s : State) : (s.setVFlag x b c).loaderOpen = s.loaderOpen := rfl
@[simp] theorem setVFlag_env (x : Nibble) (b : Byte) (c : Bool) (s : State) : (s.setVFlag x b c).env = s.env := rfl
@[simp] theorem readByte_setVFlag (x : Nibble) (b : Byte) (c : Bool) (s : State) (a : Nat) : (s.setVFlag x b c).readByte a = s.readByte a := rfl

theorem getV_setVFlag_F (x : Nibble) (b : Byte) (c : Bool) (s : State) : (s.setVFlag x b c).getV 0xF = flagByte c :=
  getV_setFlag_F _ _

theorem getV_setVFlag_same {x : Nibble} (h : x ≠ 0xF) (b : Byte) (c : Bool) (s : State) :
    (s.setVFlag x b c).getV x = b := by
  rw [State.setVFlag, getV_setFlag_other _ _ h, State.getV_setV_same]

theorem getV_setVFlag_other {x y : Nibble} (hx : y ≠ x) (hf : y ≠ 0xF) (b : Byte) (c : Bool) (s : State) :
    (s.setVFlag x b c).getV y = s.getV y := by
  rw [State.setVFlag, getV_setFlag_other _ _ hf, State.getV_setV_other _ hx]

/-! `rndWith` writes `V[x]` only (R140). -/

@[simp] theorem rndWith_pc (r : Byte) (x : Nibble) (nn : Byte) (s : State) : (rndWith r x nn s).pc = s.pc := rfl
@[simp] theorem rndWith_i (r : Byte) (x : Nibble) (nn : Byte) (s : State) : (rndWith r x nn s).i = s.i := rfl
@[simp] theorem rndWith_mem (r : Byte) (x : Nibble) (nn : Byte) (s : State) : (rndWith r x nn s).mem = s.mem := rfl
@[simp] theorem rndWith_stack (r : Byte) (x : Nibble) (nn : Byte) (s : State) : (rndWith r x nn s).stack = s.stack := rfl
@[simp] theorem rndWith_dt (r : Byte) (x : Nibble) (nn : Byte) (s : State) : (rndWith r x nn s).dt = s.dt := rfl
@[simp] theorem rndWith_st (r : Byte) (x : Nibble) (nn : Byte) (s : State) : (rndWith r x nn s).st = s.st := rfl
@[simp] theorem rndWith_display (r : Byte) (x : Nibble) (nn : Byte) (s : State) : (rndWith r x nn s).display = s.display := rfl
@[simp] theorem rndWith_key (r : Byte) (x : Nibble) (nn : Byte) (s : State) : (rndWith r x nn s).key = s.key := rfl
@[simp] theorem rndWith_pressedCount (r : Byte) (x : Nibble) (nn : Byte) (s : State) : (rndWith r x nn s).pressedCount = s.pressedCount := rfl
@[simp] theorem rndWith_mode (r : Byte) (x : Nibble) (nn : Byte) (s : State) : (rndWith r x nn s).mode = s.mode := rfl
@[simp] theorem rndWith_loaderOpen (r : Byte) (x : Nibble) (nn : Byte) (s : State) : (rndWith r x nn s).loaderOpen = s.loaderOpen := rfl
@[simp] theorem rndWith_env (r : Byte) (x : Nibble) (nn : Byte) (s : State) : (rndWith r x nn s).env = s.env := rfl
@[simp] theorem readByte_rndWith (r : Byte) (x : Nibble) (nn : Byte) (s : State) (a : Nat) : (rndWith r x nn s).readByte a = s.readByte a := rfl

/-! `afterFetch` writes `pc` and ends the loader's turn (R12, R64). -/

@[simp] theorem afterFetch_v  (s : State) : (afterFetch s).v = s.v := rfl
@[simp] theorem afterFetch_i  (s : State) : (afterFetch s).i = s.i := rfl
@[simp] theorem afterFetch_mem  (s : State) : (afterFetch s).mem = s.mem := rfl
@[simp] theorem afterFetch_stack  (s : State) : (afterFetch s).stack = s.stack := rfl
@[simp] theorem afterFetch_dt  (s : State) : (afterFetch s).dt = s.dt := rfl
@[simp] theorem afterFetch_st  (s : State) : (afterFetch s).st = s.st := rfl
@[simp] theorem afterFetch_display  (s : State) : (afterFetch s).display = s.display := rfl
@[simp] theorem afterFetch_key  (s : State) : (afterFetch s).key = s.key := rfl
@[simp] theorem afterFetch_pressedCount  (s : State) : (afterFetch s).pressedCount = s.pressedCount := rfl
@[simp] theorem afterFetch_mode  (s : State) : (afterFetch s).mode = s.mode := rfl
@[simp] theorem afterFetch_env  (s : State) : (afterFetch s).env = s.env := rfl
@[simp] theorem getV_afterFetch  (s : State) (y : Nibble) : (afterFetch s).getV y = s.getV y := rfl
@[simp] theorem readByte_afterFetch  (s : State) (a : Nat) : (afterFetch s).readByte a = s.readByte a := rfl
@[simp] theorem afterFetch_pc (s : State) : (afterFetch s).pc = s.pc + 2 := rfl
@[simp] theorem afterFetch_loaderOpen (s : State) : (afterFetch s).loaderOpen = false := rfl

/-! ### The two outcomes of a checked operation -/

/-- A data access answers its result, or is the fatal condition `MemoryOutOfBounds`. -/
theorem checkedAccess_cases (i : Instr) (n : Nat) (s ok : State) :
    checkedAccess i n s ok = .next ok ∧ (n = 0 ∨ s.base + n ≤ 4096) ∨
      (∃ d, checkedAccess i n s ok = raise .memoryOutOfBounds i d s) := by
  by_cases h : 0 < n ∧ 4095 < s.base + n - 1
  · exact .inr ⟨_, checkedAccess_outside h⟩
  · exact .inl ⟨checkedAccess_inside h, by omega⟩

/-- A selector gives its result, or is the fatal condition `SelectorOutOfRange`. -/
theorem checkedSelector_cases (i : Instr) (x : Nibble) (s : State) (ok : Nibble → State) :
    checkedSelector i x s ok = .next (ok ((s.getV x).setWidth 4)) ∨
      (∃ d, checkedSelector i x s ok = raise .selectorOutOfRange i d s) := by
  by_cases h : (s.getV x).toNat ≤ 15
  · exact .inl (checkedSelector_inside h)
  · exact .inr ⟨_, checkedSelector_outside (by omega)⟩

/-- A call pushes and goes, or is the fatal condition `StackOverflow`. -/
theorem callWithin_cases (c : Nat) (i : Instr) (a : Word) (s : State) :
    callWithin c i a s = .next ((s.setStack (s.pc :: s.stack)).setPc a) ∧ s.sp < c ∨
      callWithin c i a s = raise .stackOverflow i none s := by
  by_cases h : s.sp < c
  · exact .inl ⟨callWithin_room h, h⟩
  · exact .inr (callWithin_full (by omega))

/-- A return pops, or is the fatal condition `StackUnderflow`. -/
theorem popInto_cases (i : Instr) (s : State) :
    (∃ a rest, s.stack = a :: rest ∧ popInto i s = .next ((s.setStack rest).setPc a)) ∨
      popInto i s = raise .stackUnderflow i none s := by
  cases h : s.stack with
  | nil => exact .inr (popInto_nil h)
  | cons a rest => exact .inl ⟨a, rest, rfl, popInto_cons h⟩

/-- What `raise` answers. -/
theorem raise_eq (kind : FatalKind) (i : Instr) (d : Option Nat) (s : State) :
    raise kind i d s = .next (s.setMode (.halted ⟨kind, some (encode i), some (s.pc - 2), d⟩)) := rfl

end Sys2Proof.Machine
end

