-- ==== Sys2Proof/Laws/PerInstr.lean ====
section
/-! SUPPORT. Statements made for every instruction, one lemma per constructor. `InItsRow`: the operand numbers fit their
fields (R62, R68), and the word of the instruction lies in the instruction's own row of mask and match (R65). -/

namespace Sys2Proof.Laws.InItsRow

/-- The instruction is well formed, and its word is selected by its own row. -/
def Statement (i : Instr) : Prop := i.wellFormed = true ∧ (opcodeRow i).selects (encode i) = true

theorem cls : Statement (.cls) := by
  constructor <;> decide
theorem ret : Statement (.ret) := by
  constructor <;> decide
theorem jp (nnn : Addr12) : Statement (.jp nnn) := by
  refine ⟨?_, ?_⟩
  · simp [Instr.wellFormed, Instr.rawFields, RawFields.wellFormed]
    omega
  · simp only [OpcodeRow.selects, opcodeRow, encode, and_F000, opOf_nnnWord]
    rfl
theorem call (nnn : Addr12) : Statement (.call nnn) := by
  refine ⟨?_, ?_⟩
  · simp [Instr.wellFormed, Instr.rawFields, RawFields.wellFormed]
    omega
  · simp only [OpcodeRow.selects, opcodeRow, encode, and_F000, opOf_nnnWord]
    rfl
theorem seImm (x : Nibble) (nn : Byte) : Statement (.seImm x nn) := by
  refine ⟨?_, ?_⟩
  · simp [Instr.wellFormed, Instr.rawFields, RawFields.wellFormed]
    omega
  · simp only [OpcodeRow.selects, opcodeRow, encode, and_F000, opOf_xnnWord]
    rfl
theorem sneImm (x : Nibble) (nn : Byte) : Statement (.sneImm x nn) := by
  refine ⟨?_, ?_⟩
  · simp [Instr.wellFormed, Instr.rawFields, RawFields.wellFormed]
    omega
  · simp only [OpcodeRow.selects, opcodeRow, encode, and_F000, opOf_xnnWord]
    rfl
theorem seReg (x y : Nibble) : Statement (.seReg x y) := by
  refine ⟨?_, ?_⟩
  · simp [Instr.wellFormed, Instr.rawFields, RawFields.wellFormed]
    omega
  · simp only [OpcodeRow.selects, opcodeRow, encode, and_F00F, opOf_xynWord, nOf_xynWord]
    rfl
theorem ldImm (x : Nibble) (nn : Byte) : Statement (.ldImm x nn) := by
  refine ⟨?_, ?_⟩
  · simp [Instr.wellFormed, Instr.rawFields, RawFields.wellFormed]
    omega
  · simp only [OpcodeRow.selects, opcodeRow, encode, and_F000, opOf_xnnWord]
    rfl
theorem addImm (x : Nibble) (nn : Byte) : Statement (.addImm x nn) := by
  refine ⟨?_, ?_⟩
  · simp [Instr.wellFormed, Instr.rawFields, RawFields.wellFormed]
    omega
  · simp only [OpcodeRow.selects, opcodeRow, encode, and_F000, opOf_xnnWord]
    rfl
theorem ldReg (x y : Nibble) : Statement (.ldReg x y) := by
  refine ⟨?_, ?_⟩
  · simp [Instr.wellFormed, Instr.rawFields, RawFields.wellFormed]
    omega
  · simp only [OpcodeRow.selects, opcodeRow, encode, and_F00F, opOf_xynWord, nOf_xynWord]
    rfl
theorem orReg (x y : Nibble) : Statement (.orReg x y) := by
  refine ⟨?_, ?_⟩
  · simp [Instr.wellFormed, Instr.rawFields, RawFields.wellFormed]
    omega
  · simp only [OpcodeRow.selects, opcodeRow, encode, and_F00F, opOf_xynWord, nOf_xynWord]
    rfl
theorem andReg (x y : Nibble) : Statement (.andReg x y) := by
  refine ⟨?_, ?_⟩
  · simp [Instr.wellFormed, Instr.rawFields, RawFields.wellFormed]
    omega
  · simp only [OpcodeRow.selects, opcodeRow, encode, and_F00F, opOf_xynWord, nOf_xynWord]
    rfl
theorem xorReg (x y : Nibble) : Statement (.xorReg x y) := by
  refine ⟨?_, ?_⟩
  · simp [Instr.wellFormed, Instr.rawFields, RawFields.wellFormed]
    omega
  · simp only [OpcodeRow.selects, opcodeRow, encode, and_F00F, opOf_xynWord, nOf_xynWord]
    rfl
theorem addReg (x y : Nibble) : Statement (.addReg x y) := by
  refine ⟨?_, ?_⟩
  · simp [Instr.wellFormed, Instr.rawFields, RawFields.wellFormed]
    omega
  · simp only [OpcodeRow.selects, opcodeRow, encode, and_F00F, opOf_xynWord, nOf_xynWord]
    rfl
theorem sub (x y : Nibble) : Statement (.sub x y) := by
  refine ⟨?_, ?_⟩
  · simp [Instr.wellFormed, Instr.rawFields, RawFields.wellFormed]
    omega
  · simp only [OpcodeRow.selects, opcodeRow, encode, and_F00F, opOf_xynWord, nOf_xynWord]
    rfl
theorem shr (x y : Nibble) : Statement (.shr x y) := by
  refine ⟨?_, ?_⟩
  · simp [Instr.wellFormed, Instr.rawFields, RawFields.wellFormed]
    omega
  · simp only [OpcodeRow.selects, opcodeRow, encode, and_F00F, opOf_xynWord, nOf_xynWord]
    rfl
theorem subn (x y : Nibble) : Statement (.subn x y) := by
  refine ⟨?_, ?_⟩
  · simp [Instr.wellFormed, Instr.rawFields, RawFields.wellFormed]
    omega
  · simp only [OpcodeRow.selects, opcodeRow, encode, and_F00F, opOf_xynWord, nOf_xynWord]
    rfl
theorem shl (x y : Nibble) : Statement (.shl x y) := by
  refine ⟨?_, ?_⟩
  · simp [Instr.wellFormed, Instr.rawFields, RawFields.wellFormed]
    omega
  · simp only [OpcodeRow.selects, opcodeRow, encode, and_F00F, opOf_xynWord, nOf_xynWord]
    rfl
theorem sneReg (x y : Nibble) : Statement (.sneReg x y) := by
  refine ⟨?_, ?_⟩
  · simp [Instr.wellFormed, Instr.rawFields, RawFields.wellFormed]
    omega
  · simp only [OpcodeRow.selects, opcodeRow, encode, and_F00F, opOf_xynWord, nOf_xynWord]
    rfl
theorem ldI (nnn : Addr12) : Statement (.ldI nnn) := by
  refine ⟨?_, ?_⟩
  · simp [Instr.wellFormed, Instr.rawFields, RawFields.wellFormed]
    omega
  · simp only [OpcodeRow.selects, opcodeRow, encode, and_F000, opOf_nnnWord]
    rfl
theorem jpV0 (nnn : Addr12) : Statement (.jpV0 nnn) := by
  refine ⟨?_, ?_⟩
  · simp [Instr.wellFormed, Instr.rawFields, RawFields.wellFormed]
    omega
  · simp only [OpcodeRow.selects, opcodeRow, encode, and_F000, opOf_nnnWord]
    rfl
theorem rnd (x : Nibble) (nn : Byte) : Statement (.rnd x nn) := by
  refine ⟨?_, ?_⟩
  · simp [Instr.wellFormed, Instr.rawFields, RawFields.wellFormed]
    omega
  · simp only [OpcodeRow.selects, opcodeRow, encode, and_F000, opOf_xnnWord]
    rfl
theorem drw (x y n : Nibble) : Statement (.drw x y n) := by
  refine ⟨?_, ?_⟩
  · simp [Instr.wellFormed, Instr.rawFields, RawFields.wellFormed]
    omega
  · simp only [OpcodeRow.selects, opcodeRow, encode, and_F000, opOf_xynWord]
    rfl
theorem skp (x : Nibble) : Statement (.skp x) := by
  refine ⟨?_, ?_⟩
  · simp [Instr.wellFormed, Instr.rawFields, RawFields.wellFormed]
    omega
  · simp only [OpcodeRow.selects, opcodeRow, encode, and_F0FF, opOf_xnnWord, nnOf_xnnWord]
    rfl
theorem sknp (x : Nibble) : Statement (.sknp x) := by
  refine ⟨?_, ?_⟩
  · simp [Instr.wellFormed, Instr.rawFields, RawFields.wellFormed]
    omega
  · simp only [OpcodeRow.selects, opcodeRow, encode, and_F0FF, opOf_xnnWord, nnOf_xnnWord]
    rfl
theorem readDt (x : Nibble) : Statement (.readDt x) := by
  refine ⟨?_, ?_⟩
  · simp [Instr.wellFormed, Instr.rawFields, RawFields.wellFormed]
    omega
  · simp only [OpcodeRow.selects, opcodeRow, encode, and_F0FF, opOf_xnnWord, nnOf_xnnWord]
    rfl
theorem waitKey (x : Nibble) : Statement (.waitKey x) := by
  refine ⟨?_, ?_⟩
  · simp [Instr.wellFormed, Instr.rawFields, RawFields.wellFormed]
    omega
  · simp only [OpcodeRow.selects, opcodeRow, encode, and_F0FF, opOf_xnnWord, nnOf_xnnWord]
    rfl
theorem setDt (x : Nibble) : Statement (.setDt x) := by
  refine ⟨?_, ?_⟩
  · simp [Instr.wellFormed, Instr.rawFields, RawFields.wellFormed]
    omega
  · simp only [OpcodeRow.selects, opcodeRow, encode, and_F0FF, opOf_xnnWord, nnOf_xnnWord]
    rfl
theorem setSt (x : Nibble) : Statement (.setSt x) := by
  refine ⟨?_, ?_⟩
  · simp [Instr.wellFormed, Instr.rawFields, RawFields.wellFormed]
    omega
  · simp only [OpcodeRow.selects, opcodeRow, encode, and_F0FF, opOf_xnnWord, nnOf_xnnWord]
    rfl
theorem addI (x : Nibble) : Statement (.addI x) := by
  refine ⟨?_, ?_⟩
  · simp [Instr.wellFormed, Instr.rawFields, RawFields.wellFormed]
    omega
  · simp only [OpcodeRow.selects, opcodeRow, encode, and_F0FF, opOf_xnnWord, nnOf_xnnWord]
    rfl
theorem ldF (x : Nibble) : Statement (.ldF x) := by
  refine ⟨?_, ?_⟩
  · simp [Instr.wellFormed, Instr.rawFields, RawFields.wellFormed]
    omega
  · simp only [OpcodeRow.selects, opcodeRow, encode, and_F0FF, opOf_xnnWord, nnOf_xnnWord]
    rfl
theorem ldB (x : Nibble) : Statement (.ldB x) := by
  refine ⟨?_, ?_⟩
  · simp [Instr.wellFormed, Instr.rawFields, RawFields.wellFormed]
    omega
  · simp only [OpcodeRow.selects, opcodeRow, encode, and_F0FF, opOf_xnnWord, nnOf_xnnWord]
    rfl
theorem storeRegs (x : Nibble) : Statement (.storeRegs x) := by
  refine ⟨?_, ?_⟩
  · simp [Instr.wellFormed, Instr.rawFields, RawFields.wellFormed]
    omega
  · simp only [OpcodeRow.selects, opcodeRow, encode, and_F0FF, opOf_xnnWord, nnOf_xnnWord]
    rfl
theorem loadRegs (x : Nibble) : Statement (.loadRegs x) := by
  refine ⟨?_, ?_⟩
  · simp [Instr.wellFormed, Instr.rawFields, RawFields.wellFormed]
    omega
  · simp only [OpcodeRow.selects, opcodeRow, encode, and_F0FF, opOf_xnnWord, nnOf_xnnWord]
    rfl

end Sys2Proof.Laws.InItsRow
end

