-- ==== Sys2Proof/Laws/Step.lean ====
section
/-! SUPPORT. Everything a step can do, said once: the engine's turn or one input, what one input does in which mode, and
what one engine cycle does (R20, R24, R64, R66, R171). -/

namespace Sys2Proof.Machine

/-- With nothing scheduled the engine has its turn. -/
theorem step_idle {s : State} (h : s.env.schedule = []) : step s = engineTurn s := by
  simp [step, h]

/-- A scheduled input is taken. -/
theorem step_input {s : State} {e : Input} {rest : List Input} (h : s.env.schedule = e :: rest) :
    step s = takeInput e (s.setSchedule rest) := by
  simp [step, h]

/-- A step that is an engine cycle, by the engine's turn or by a scheduled `Step` (R195). -/
theorem step_cycle {s u : State} (h : CycleNext s u) : step s = engineCycle u := by
  obtain ⟨hm, ⟨hs, rfl⟩ | ⟨rest, hs, rfl⟩⟩ := h
  · rw [step_idle hs, engineTurn, hm]
  · simp [step_input hs, takeInput, hm]

/-- The state an engine cycle is taken from differs in the schedule only. -/
theorem cycleNext_keeps {s u : State} (h : CycleNext s u) : KeepsAllBut [.env] s u := by
  obtain ⟨-, ⟨-, rfl⟩ | ⟨rest, -, rfl⟩⟩ := h
  · exact KeepsAllBut.refl u _
  · intro p hp
    cases p <;> simp_all [Part.same]

theorem cycleNext_pc {s u : State} (h : CycleNext s u) : u.pc = s.pc := cycleNext_keeps h .pc (by simp)

theorem cycleNext_fetchWord {s u : State} (h : CycleNext s u) : fetchWord u = fetchWord s := by
  obtain ⟨-, ⟨-, rfl⟩ | ⟨rest, -, rfl⟩⟩ := h <;> rfl

/-- Everything a step that answers a next state can be. -/
theorem step_cases {s t : State} (h : step s = .next t) :
    (s.env.schedule = [] ∧ s.mode = .running ∧ engineCycle s = .next t) ∨
      (s.env.schedule = [] ∧ (∃ x, s.mode = .awaitingKey x) ∧ t = s) ∨
      ∃ e rest, s.env.schedule = e :: rest ∧ takeInput e (s.setSchedule rest) = .next t := by
  cases hs : s.env.schedule with
  | nil =>
    rw [step_idle hs, engineTurn] at h
    split at h
    · exact .inl ⟨rfl, by assumption, h⟩
    · cases h; exact .inr (.inl ⟨rfl, ⟨_, by assumption⟩, rfl⟩)
    · cases h
  | cons e rest =>
    rw [step_input hs] at h
    exact .inr (.inr ⟨e, rest, rfl, h⟩)

/-- What a `Load` that answers a next state does. -/
theorem loadImage_next {s t : State} {image : List Byte} (h : loadImage image s = .next t) :
    s.loaderOpen = true ∧ image.length ≤ 3584 ∧ t = (s.setMem (writeBytes s.mem 0x200 image)).closeLoader := by
  unfold loadImage at h
  split at h
  · cases h
  · split at h
    · cases h
    · cases h; simp_all [Config.maxImage, Config.progBase]

/-- A `Load` after the first cycle or a first `Load` is refused (R24, R213, log entry 5). -/
theorem loadImage_closed {s : State} (image : List Byte) (h : s.loaderOpen = false) :
    loadImage image s = .refused .loaderClosed := if_pos h

/-- Everything an input that answers a next state can do. -/
theorem takeInput_cases {s t : State} {e : Input} (h : takeInput e s = .next t) :
    (e = .reset ∧ t = resetEvent s) ∨ (e = .snapshot ∧ t = snapshot s) ∨ (Halted s ∧ e ≠ .reset ∧ e ≠ .snapshot ∧ t = s) ∨
      (e = .cycle ∧ s.mode = .running ∧ engineCycle s = .next t) ∨
      (e = .cycle ∧ (∃ x, s.mode = .awaitingKey x) ∧ t = s) ∨ (e = .tick ∧ ¬ Halted s ∧ t = tick s) ∨
      (∃ k, e = .keyDown k ∧ ¬ Halted s ∧ t = keyDown k s) ∨
      (∃ k, e = .keyUp k ∧ ¬ Halted s ∧ keyUp k s = .next t) ∨
      ∃ image, e = .load image ∧ ¬ Halted s ∧ loadImage image s = .next t := by
  unfold takeInput at h
  cases hm : s.mode <;> cases e <;> simp_all [Halted]

/-- Everything an engine cycle that answers a next state can be. -/
theorem engineCycle_cases {s t : State} (h : engineCycle s = .next t) :
    (4094 < s.pc.toNat ∧ t = s.setMode (.halted ⟨.fetchOutOfBounds, none, some s.pc, some s.pc.toNat⟩)) ∨
      (s.pc.toNat ≤ 4094 ∧ ∃ i, decodeWord (fetchWord s) = some i ∧ exec i (afterFetch s) = .next t) ∨
      (s.pc.toNat ≤ 4094 ∧ decodeWord (fetchWord s) = none ∧
        t = (afterFetch s).emit (.unrecognized (fetchWord s) s.pc)) := by
  unfold engineCycle at h
  split at h
  · cases h; exact .inl ⟨by assumption, rfl⟩
  · split at h
    · exact .inr (.inl ⟨by omega, _, by assumption, h⟩)
    · cases h; exact .inr (.inr ⟨by omega, by assumption, rfl⟩)

/-! ### The transitions of the other agents in a machine that is not halted -/

theorem takeInput_tick {s : State} (h : ¬ Halted s) : takeInput .tick s = .next (tick s) := by
  unfold takeInput
  cases hm : s.mode <;> simp
  exact absurd ⟨_, hm⟩ h

theorem takeInput_keyDown {s : State} {k : Nibble} (h : ¬ Halted s) : takeInput (.keyDown k) s = .next (keyDown k s) := by
  unfold takeInput
  cases hm : s.mode <;> simp
  exact absurd ⟨_, hm⟩ h

theorem takeInput_keyUp {s : State} {k : Nibble} (h : ¬ Halted s) : takeInput (.keyUp k) s = keyUp k s := by
  unfold takeInput
  cases hm : s.mode <;> simp
  exact absurd ⟨_, hm⟩ h

theorem takeInput_load {s : State} {image : List Byte} (h : ¬ Halted s) :
    takeInput (.load image) s = loadImage image s := by
  unfold takeInput
  cases hm : s.mode <;> simp
  exact absurd ⟨_, hm⟩ h

/-- A count of a timer never passes zero (R181). -/
theorem toNat_countdown (b : Byte) : (countdown b).toNat = b.toNat - 1 := by
  revert b; decide

/-- A press of a key while the engine waits (R155, R185). -/
theorem keyDown_awaiting {s : State} {x : Nibble} (k : Nibble) (h : s.mode = .awaitingKey x) :
    keyDown k s = ((((s.setPressedCount (s.pressedCount + 1)).setKey k true).setV x (zextNibble k)).setMode .running) := by
  simp [keyDown, endWait, h]

/-- A press of a key while the engine runs (R185). -/
theorem keyDown_running {s : State} (k : Nibble) (h : s.mode = .running) :
    keyDown k s = (s.setPressedCount (s.pressedCount + 1)).setKey k true := by
  simp [keyDown, endWait, h]

/-- The two outcomes of a release (R186). -/
theorem keyUp_cases (k : Nibble) (s : State) :
    (0 < s.pressedCount ∧ keyUp k s = .next ((s.setPressedCount (s.pressedCount - 1)).setKey k false)) ∨
      (s.pressedCount = 0 ∧ keyUp k s = .next (s.setMode (.halted ⟨.keyCountNegative, none, none, some k.toNat⟩))) := by
  rw [keyUp]
  by_cases h : s.pressedCount = 0
  · exact .inr ⟨h, if_pos h⟩
  · exact .inl ⟨by omega, if_neg h⟩

end Sys2Proof.Machine
end

