-- ==== Sys2Proof/Tests/Slice0.lean ====
section
/-! SUPPORT. The model's own tests: ill-formed operands refused, one word per instruction written bit by bit from R65,
one-step results taken from spec/95_test_vectors.md and from the examples of the rules, and for every statement with
hypotheses a concrete state that meets them. -/

namespace Sys2Proof.Tests

open Sys2Proof Sys2Proof.Machine

/-! ### Helpers -/

/-- The reset state with one instruction word placed where the engine fetches next. -/
def boot (w : Nat) : State := State.reset.withFetchWord 16 w

/-- A state with some registers preset. -/
def withRegs (l : List (Nibble × Byte)) (s : State) : State := l.foldl (fun s p => s.setV p.1 p.2) s

/-- A state with some bytes of memory preset. -/
def withBytes (a : Nat) (l : List Byte) (s : State) : State := s.setMem (writeBytes s.mem a l)

/-- A state with these cells, (column, row), toggled. -/
def withCells (l : List (Nat × Nat)) (s : State) : State :=
  s.setDisplay (l.foldl (fun d p => toggleCell d p.2 p.1) s.display)

/-- What a result's next state shows; nothing where it stops. -/
def got {α : Type} (r : Result) (f : State → α) : Option α :=
  match r with
  | .next t => some (f t)
  | _ => none

/-- What a result's next state holds in these registers. -/
def gotV (r : Result) (l : List Nibble) : Option (List Byte) := got r fun t => l.map t.getV

/-- The kind and detail of the fault record a result leaves, with its `pc`. -/
def gotFault (r : Result) : Option (Option (FatalKind × Option Nat) × Word) :=
  got r fun t => (t.faultRecord.map fun q => (q.kind, q.detail), t.pc)

/-- The display cells of one row that a result's next state shows lit, in eight columns from `col`. -/
def gotCells (r : Result) (row col : Nat) : Option (List Bool) :=
  got r fun t => (List.range 8).map fun c => cellAt t.display row (col + c)

/-! ### Operand numbers that do not fit their field are refused (R68) -/

theorem test_nnn_too_wide : (RawFields.nnn 4096).wellFormed = false := by decide
theorem test_nnn_widest : (RawFields.nnn 4095).wellFormed = true := by decide
theorem test_xnn_register_too_wide : (RawFields.xnn 16 0).wellFormed = false := by decide
theorem test_xnn_immediate_too_wide : (RawFields.xnn 0 256).wellFormed = false := by decide
theorem test_xyn_x_too_wide : (RawFields.xyn 16 0 0).wellFormed = false := by decide
theorem test_xyn_y_too_wide : (RawFields.xyn 0 16 0).wellFormed = false := by decide
theorem test_xyn_n_too_wide : (RawFields.xyn 0 0 16).wellFormed = false := by decide
theorem test_x_too_wide : (RawFields.x 16).wellFormed = false := by decide

/-! ### One word per instruction, written bit by bit from its row of R65 -/

theorem test_decode_cls : decodeWord 0b0000000011100000#16 = some (.cls) := by decide
theorem test_decode_ret : decodeWord 0b0000000011101110#16 = some (.ret) := by decide
theorem test_decode_jp : decodeWord 0b0001001000110100#16 = some (.jp 0x234) := by decide
theorem test_decode_call : decodeWord 0b0010101010111100#16 = some (.call 0xABC) := by decide
theorem test_decode_seImm : decodeWord 0b0011001100101010#16 = some (.seImm 3 0x2A) := by decide
theorem test_decode_sneImm : decodeWord 0b0100001100101011#16 = some (.sneImm 3 0x2B) := by decide
theorem test_decode_seReg : decodeWord 0b0101000100100000#16 = some (.seReg 1 2) := by decide
theorem test_decode_ldImm : decodeWord 0b0110101000101011#16 = some (.ldImm 0xA 0x2B) := by decide
theorem test_decode_addImm : decodeWord 0b0111000011111111#16 = some (.addImm 0 0xFF) := by decide
theorem test_decode_ldReg : decodeWord 0b1000000100100000#16 = some (.ldReg 1 2) := by decide
theorem test_decode_orReg : decodeWord 0b1000000100100001#16 = some (.orReg 1 2) := by decide
theorem test_decode_andReg : decodeWord 0b1000000100100010#16 = some (.andReg 1 2) := by decide
theorem test_decode_xorReg : decodeWord 0b1000000100100011#16 = some (.xorReg 1 2) := by decide
theorem test_decode_addReg : decodeWord 0b1000000111110100#16 = some (.addReg 1 0xF) := by decide
theorem test_decode_sub : decodeWord 0b1000000100100101#16 = some (.sub 1 2) := by decide
theorem test_decode_shr : decodeWord 0b1000111100100110#16 = some (.shr 0xF 2) := by decide
theorem test_decode_subn : decodeWord 0b1000000100100111#16 = some (.subn 1 2) := by decide
theorem test_decode_shl : decodeWord 0b1000000100101110#16 = some (.shl 1 2) := by decide
theorem test_decode_sneReg : decodeWord 0b1001000100100000#16 = some (.sneReg 1 2) := by decide
theorem test_decode_ldI : decodeWord 0b1010001011110000#16 = some (.ldI 0x2F0) := by decide
theorem test_decode_jpV0 : decodeWord 0b1011001100000000#16 = some (.jpV0 0x300) := by decide
theorem test_decode_rnd : decodeWord 0b1100001100001111#16 = some (.rnd 3 0x0F) := by decide
theorem test_decode_drw : decodeWord 0b1101000000010010#16 = some (.drw 0 1 2) := by decide
theorem test_decode_skp : decodeWord 0b1110010110011110#16 = some (.skp 5) := by decide
theorem test_decode_sknp : decodeWord 0b1110010110100001#16 = some (.sknp 5) := by decide
theorem test_decode_readDt : decodeWord 0b1111001000000111#16 = some (.readDt 2) := by decide
theorem test_decode_waitKey : decodeWord 0b1111000100001010#16 = some (.waitKey 1) := by decide
theorem test_decode_setDt : decodeWord 0b1111000000010101#16 = some (.setDt 0) := by decide
theorem test_decode_setSt : decodeWord 0b1111000000011000#16 = some (.setSt 0) := by decide
theorem test_decode_addI : decodeWord 0b1111001000011110#16 = some (.addI 2) := by decide
theorem test_decode_ldF : decodeWord 0b1111010000101001#16 = some (.ldF 4) := by decide
theorem test_decode_ldB : decodeWord 0b1111001100110011#16 = some (.ldB 3) := by decide
theorem test_decode_storeRegs : decodeWord 0b1111001001010101#16 = some (.storeRegs 2) := by decide
theorem test_decode_loadRegs : decodeWord 0b1111001001100101#16 = some (.loadRegs 2) := by decide

/-! ### Words that are no instruction (R66), and bytes that are no word -/

theorem test_unrecognized_5121 : decodeWord 0x5121 = none := by decide
theorem test_unrecognized_01E0 : decodeWord 0x01E0 = none := by decide
theorem test_unrecognized_8128 : decodeWord 0x8128 = none := by decide
theorem test_unrecognized_E19F : decodeWord 0xE19F = none := by decide
theorem test_unrecognized_F1FF : decodeWord 0xF1FF = none := by decide
theorem test_bytes_high_first : decode [0x12, 0x34, 0x56] = .ok (.jp 0x234, [0x56]) := by rfl
theorem test_decodeTableWord : decodeTableWord 16 0xD012 = some (.drw 0 1 2) := by decide
theorem test_one_byte_is_no_word : decode [0x12] = .error .truncated := by rfl

/-! ### One step of each instruction: the vectors of spec/95_test_vectors.md -/

-- control flow, 2.1
theorem test_jp : got (step (boot 0x1234)) (·.pc) = some 0x234 := by decide
theorem test_jp_to_itself : got (step (boot 0x1200)) (·.pc) = some 0x200 := by decide
theorem test_call : got (callWithin 16 (.call 0xABC) 0xABC ((boot 0x2ABC).setPc 0x1000)) (fun t => (t.pc, t.stack, t.sp)) =
    some (0xABC, [0x1000], 1) := by decide
theorem test_call_full : got (callWithin 16 (.call 0x200) 0x200 (((boot 0x2200).setPc 0x202).setStack (List.replicate 16 0x202)))
    (fun t => (t.faultRecord, t.pc, t.sp)) = some (some ⟨.stackOverflow, some 0x2200, some 0x200, none⟩, 0x202, 16) := by decide
theorem test_ret : got (step ((boot 0x00EE).setStack [0x202])) (fun t => (t.pc, t.sp)) = some (0x202, 0) := by decide
theorem test_ret_empty : got (step (boot 0x00EE)) (fun t => (t.faultRecord, t.pc)) =
    some (some ⟨.stackUnderflow, some 0x00EE, some 0x200, none⟩, 0x202) := by decide
theorem test_seImm_skips : got (step (withRegs [(3, 0x2A)] (boot 0x332A))) (·.pc) = some 0x204 := by decide
theorem test_seImm_falls_through : got (step (withRegs [(3, 0x2A)] (boot 0x332B))) (·.pc) = some 0x202 := by decide
theorem test_sneImm_falls_through : got (step (withRegs [(3, 0x2A)] (boot 0x432A))) (·.pc) = some 0x202 := by decide
theorem test_sneImm_skips : got (step (withRegs [(3, 0x2A)] (boot 0x432B))) (·.pc) = some 0x204 := by decide
theorem test_seReg_skips : got (step (withRegs [(1, 7), (2, 7)] (boot 0x5120))) (·.pc) = some 0x204 := by decide
theorem test_seReg_falls_through : got (step (withRegs [(1, 7), (2, 8)] (boot 0x5120))) (·.pc) = some 0x202 := by decide
theorem test_sneReg_skips : got (step (withRegs [(1, 7), (2, 8)] (boot 0x9120))) (·.pc) = some 0x204 := by decide
theorem test_sneReg_falls_through : got (step (withRegs [(1, 7), (2, 7)] (boot 0x9120))) (·.pc) = some 0x202 := by decide
theorem test_jpV0_unreduced : got (step (withRegs [(0, 0xFF)] (boot 0xBFFF))) (·.pc) = some 0x10FE := by decide
theorem test_skip_past_memory : got (step (State.withFetchWord (State.reset.setPc 0xFFE) 16 0x3000)) (·.pc) = some 0x1002 := by decide

-- immediate and register ALU, 2.2
theorem test_ldImm : gotV (step (boot 0x6F07)) [0xF] = some [7] := by decide
theorem test_addImm_keeps_flag : gotV (step (withRegs [(0, 0xFF), (0xF, 1)] (boot 0x7002))) [0, 0xF] = some [1, 1] := by decide
theorem test_addImm_wraps_VF : gotV (step (withRegs [(0xF, 0xFF)] (boot 0x7F01))) [0xF] = some [0] := by decide
theorem test_ldReg : gotV (step (withRegs [(2, 0x5C)] (boot 0x8120))) [1, 2] = some [0x5C, 0x5C] := by decide
theorem test_or : gotV (step (withRegs [(1, 0xF0), (2, 0x0F), (0xF, 1)] (boot 0x8121))) [1, 0xF] = some [0xFF, 1] := by decide
theorem test_and : gotV (step (withRegs [(1, 0xF3), (2, 0x3F), (0xF, 1)] (boot 0x8122))) [1, 0xF] = some [0x33, 1] := by decide
theorem test_xor : gotV (step (withRegs [(1, 0xFF), (2, 0x0F), (0xF, 1)] (boot 0x8123))) [1, 0xF] = some [0xF0, 1] := by decide
theorem test_addReg_exactly_255 : gotV (step (withRegs [(1, 0xFE), (2, 1), (0xF, 1)] (boot 0x8124))) [1, 0xF] = some [0xFF, 0] := by decide
theorem test_addReg_flag_wins : gotV (step (withRegs [(0xF, 0xFF), (2, 2)] (boot 0x8F24))) [0xF] = some [1] := by decide
theorem test_sub_borrow : gotV (step (withRegs [(1, 1), (2, 2), (0xF, 1)] (boot 0x8125))) [1, 0xF] = some [0xFF, 0] := by decide
theorem test_sub_equal : gotV (step (withRegs [(1, 7), (2, 7)] (boot 0x8125))) [1, 0xF] = some [0, 1] := by decide
theorem test_shr_source_is_Vy : gotV (step (withRegs [(1, 0xAA), (2, 5)] (boot 0x8126))) [1, 2, 0xF] = some [2, 5, 1] := by decide
theorem test_shr_y_is_VF : gotV (step (withRegs [(0xF, 3)] (boot 0x81F6))) [1, 0xF] = some [1, 1] := by decide
theorem test_subn_borrow : gotV (step (withRegs [(1, 2), (2, 1), (0xF, 1)] (boot 0x8127))) [1, 0xF] = some [0xFF, 0] := by decide
theorem test_subn_equal : gotV (step (withRegs [(1, 7), (2, 7)] (boot 0x8127))) [1, 0xF] = some [0, 1] := by decide
theorem test_shl_source_is_Vy : gotV (step (withRegs [(1, 0xAA), (2, 0x81)] (boot 0x812E))) [1, 2, 0xF] = some [2, 0x81, 1] := by decide
theorem test_shl_no_bit_out : gotV (step (withRegs [(1, 0xAA), (2, 0x41), (0xF, 1)] (boot 0x812E))) [1, 0xF] = some [0x82, 0] := by decide

-- index and memory, 2.3
theorem test_ldI : got (step ((boot 0xA2F0).setI 0x111)) (fun t => (t.i, t.getV 0xF)) = some (0x2F0, 0) := by decide
theorem test_addI_boundary : got (step (withRegs [(2, 0xFF)] ((boot 0xF21E).setI 0xF00))) (fun t => (t.i, t.getV 0xF)) = some (0xFFF, 0) := by decide
theorem test_addI_wraps_16 : got (step (withRegs [(2, 1)] ((boot 0xF21E).setI 0xFFFF))) (fun t => (t.i, t.getV 0xF)) = some (0, 1) := by decide
theorem test_store_keeps_I : got (storeBlockWith false 2 (withRegs [(0, 1), (1, 2), (2, 3), (3, 4)] ((boot 0xF255).setI 0x300)))
    (fun t => ((List.range 4).map fun j => t.readByte (0x300 + j), t.i)) = some ([1, 2, 3, 0], 0x300) := by decide
theorem test_store_advances_I : got (storeBlockWith true 2 (withRegs [(0, 1), (1, 2), (2, 3), (3, 4)] ((boot 0xF255).setI 0x300)))
    (fun t => ((List.range 4).map fun j => t.readByte (0x300 + j), t.i)) = some ([1, 2, 3, 0], 0x303) := by decide
theorem test_load_keeps_I : got (loadBlockWith false 2 (withBytes 0x300 [2, 5, 5, 7] (withRegs [(3, 0x99)] ((boot 0xF265).setI 0x300))))
    (fun t => ([0, 1, 2, 3].map t.getV, t.i)) = some ([2, 5, 5, 0x99], 0x300) := by decide
theorem test_load_last_address_advances_I : got (loadBlockWith true 0 (withBytes 0xFFF [0xAB] ((boot 0xF065).setI 0xFFF)))
    (fun t => (t.getV 0, t.i)) = some (0xAB, 0x1000) := by decide
theorem test_store_beyond : gotFault (step ((boot 0xFF55).setI 0xFF1)) = some (some (.memoryOutOfBounds, some 0x1000), 0x202) := by decide
theorem test_load_beyond : gotFault (step ((boot 0xF065).setI 0x1000)) = some (some (.memoryOutOfBounds, some 0x1000), 0x202) := by decide
theorem test_bcd_last_address : got (step (withRegs [(3, 255)] ((boot 0xF333).setI 0xFFD)))
    (fun t => (List.range 3).map fun j => t.readByte (0xFFD + j)) = some [2, 5, 5] := by decide
theorem test_bcd_beyond : gotFault (step (withRegs [(3, 255)] ((boot 0xF333).setI 0xFFE))) =
    some (some (.memoryOutOfBounds, some 0x1000), 0x202) := by decide
theorem test_ldF_last_glyph : got (step (withRegs [(4, 0xF)] (boot 0xF429))) (·.i) = some 0x9B := by decide
theorem test_ldF_beyond : gotFault (step (withRegs [(4, 0x10)] (boot 0xF429))) = some (some (.selectorOutOfRange, some 0x10), 0x202) := by decide

-- random, draw, clear, 2.4
theorem test_rnd_masks : (rndWith 0xA7 3 0x0F State.reset).getV 3 = 7 := by decide
theorem test_rnd_takes_a_byte : got (step (boot 0xC30F)) (fun t => (t.env.draws, t.pc)) = some (1, 0x202) := by decide
theorem test_drw_clips_right : gotCells (step (withBytes 0x300 [0xFF, 0x81] (withRegs [(0, 60), (1, 31)] ((boot 0xD012).setI 0x300)))) 31 56 =
    some [false, false, false, false, true, true, true, true] := by decide
theorem test_drw_collision : got (step (withCells [(9, 4), (12, 4)] (withBytes 0x300 [0xF0] (withRegs [(0, 8), (1, 4)] ((boot 0xD011).setI 0x300)))))
    (fun t => ((List.range 5).map fun c => cellAt t.display 4 (8 + c), t.getV 0xF)) = some ([true, false, true, true, true], 1) := by decide
theorem test_drw_no_rows_reads_nothing : got (step (withRegs [(0xF, 7)] ((boot 0xD010).setI 0x1000))) (fun t => (t.getV 0xF, t.mode)) =
    some (0, .running) := by decide
theorem test_cls : got (step (withRegs [(0xF, 1)] (withCells [(0, 0), (63, 31)] (boot 0x00E0))))
    (fun t => (cellAt t.display 0 0, cellAt t.display 31 63, t.getV 0xF)) = some (false, false, 1) := by decide

-- keys, timers, wait, 2.5
theorem test_skp_pressed : got (step (withRegs [(5, 0xA)] ((boot 0xE59E).setKey 0xA true))) (·.pc) = some 0x204 := by decide
theorem test_skp_beyond : gotFault (step (withRegs [(5, 0x10)] (boot 0xE59E))) = some (some (.selectorOutOfRange, some 0x10), 0x202) := by decide
theorem test_sknp_pressed : got (step (withRegs [(5, 0xA)] ((boot 0xE5A1).setKey 0xA true))) (·.pc) = some 0x202 := by decide
theorem test_sknp_released : got (step (withRegs [(5, 0xA)] (boot 0xE5A1))) (·.pc) = some 0x204 := by decide
theorem test_readDt : gotV (step (withRegs [(2, 9)] ((boot 0xF207).setDt 0x3C))) [2] = some [0x3C] := by decide
theorem test_setDt : got (step (withRegs [(0, 0x3C)] (boot 0xF015))) (fun t => (t.dt, t.st)) = some (0x3C, 0) := by decide
theorem test_setSt : got (step (withRegs [(0, 5)] (boot 0xF018))) (fun t => (t.dt, t.st)) = some (0, 5) := by decide
theorem test_waitKey : got (step (boot 0xF10A)) (fun t => (t.mode, t.pc)) = some (.awaitingKey 1, 0x202) := by decide

/-- The reset state in a wait for a key into `V1`. -/
def waiting : State := State.reset.setMode (.awaitingKey 1)

theorem test_press_ends_wait : got (step (waiting.setSchedule [.keyDown 7])) (fun t => (t.getV 1, t.mode, t.getKey 7, t.pressedCount)) =
    some (7, .running, true, 1) := by decide
theorem test_release_does_not : got (step (((waiting.setKey 5 true).setPressedCount 1).setSchedule [.keyUp 5]))
    (fun t => (t.getKey 5, t.pressedCount, t.mode)) = some (false, 0, .awaitingKey 1) := by decide
theorem test_repeated_press : got (step (((State.reset.setKey 7 true).setPressedCount 1).setSchedule [.keyDown 7]))
    (fun t => (t.getKey 7, t.pressedCount)) = some (true, 2) := by decide
theorem test_release_at_zero : gotFault (step (State.reset.setSchedule [.keyUp 7])) = some (some (.keyCountNegative, some 7), 0x200) := by decide
theorem test_tick : got (step (((State.reset.setDt 1).setSt 3).setSchedule [.tick])) (fun t => (t.dt, t.st)) = some (0, 2) := by decide
theorem test_tick_stops_at_zero : got (step ((State.reset.setDt 0x3C).setSchedule [.tick])) (fun t => (t.dt, t.st)) = some (0x3B, 0) := by decide

-- fetch, unrecognized words, load, reset
theorem test_fetch_beyond : gotFault (step (State.reset.setPc 0xFFF)) = some (some (.fetchOutOfBounds, some 0xFFF), 0xFFF) := by decide
theorem test_odd_pc : got (step ((State.reset.setPc 0x201).withFetchWord 16 0x6011)) (fun t => (t.getV 0, t.pc)) = some (0x11, 0x203) := by decide
theorem test_unrecognized_is_reported : got (step (boot 0x5121)) (fun t => (t.pc, t.env.outputs, t.mode)) =
    some (0x202, [.unrecognized 0x5121 0x200], .running) := by decide
theorem test_load_image : got (step (State.reset.setSchedule [.load [0x12, 0x34, 0x56]])) (fun t => (List.range 4).map fun j => t.readByte (0x200 + j)) =
    some [0x12, 0x34, 0x56, 0] := by decide
theorem test_second_load_refused : step ((State.reset.closeLoader).setSchedule [.load [0x12]]) = .refused .loaderClosed := by rfl
theorem test_reset_event : got (step ((((boot 0x1234).setDt 7).setPc 0x300).setSchedule [.reset])) (fun t => (t.pc, t.dt, t.readByte 0x200)) =
    some (0x200, 0, 0) := by decide

/-! ### For every statement with hypotheses, a state that meets them, each clause at a boundary of its range -/

theorem witness_EncodeOfDecodeIsTheWord : decodeWord 0xD012 = some (.drw 0 1 2) := by decide

theorem witness_StepRunsTheDecodedInstruction_turn : let s := (State.reset.setPc 0xFFE).withFetchWord 16 0x6A2B
    s.mode = .running ∧ s.pc.toNat ≤ 4094 ∧ decodeWord (fetchWord s) = some (.ldImm 0xA 0x2B) ∧ s.env.schedule = [] := by decide
theorem witness_StepRunsTheDecodedInstruction_step : let s := (boot 0x6A2B).setSchedule [.cycle, .tick]
    s.mode = .running ∧ s.pc.toNat ≤ 4094 ∧ decodeWord (fetchWord s) = some (.ldImm 0xA 0x2B) ∧
      s.env.schedule = .cycle :: [.tick] := by decide

/-- A running machine with nothing scheduled takes its cycle from the state it is in. -/
theorem cycleNext_turn {s : State} (hm : s.mode = .running) (hs : s.env.schedule = []) : CycleNext s s :=
  ⟨hm, .inl ⟨hs, rfl⟩⟩

/-- A running machine takes a scheduled `Step` from the state without it. -/
theorem cycleNext_step {s : State} (hm : s.mode = .running) (rest : List Input) :
    CycleNext (s.setSchedule (.cycle :: rest)) ((s.setSchedule (.cycle :: rest)).setSchedule rest) :=
  ⟨hm, .inr ⟨rest, rfl, rfl⟩⟩

theorem witness_FetchBeyondMemoryHalts_turn : CycleNext (State.reset.setPc 4095) (State.reset.setPc 4095) ∧
    4094 < (State.reset.setPc 4095).pc.toNat := ⟨cycleNext_turn rfl rfl, by decide⟩
theorem witness_FetchBeyondMemoryHalts_step : let s := (State.reset.setPc 4095).setSchedule [.cycle, .tick]
    CycleNext s (s.setSchedule [.tick]) ∧ 4094 < s.pc.toNat := ⟨cycleNext_step rfl _, by decide⟩

theorem witness_UnrecognizedWordIsReportedAndSkipped_turn : CycleNext (boot 0x5121) (boot 0x5121) ∧
    (boot 0x5121).pc.toNat ≤ 4094 ∧ ∀ r ∈ opcodeRows, r.selects (fetchWord (boot 0x5121)) = false :=
  ⟨cycleNext_turn rfl rfl, by decide, by decide⟩
theorem witness_UnrecognizedWordIsReportedAndSkipped_step : let s := (boot 0x5121).setSchedule [.cycle, .tick]
    CycleNext s (s.setSchedule [.tick]) ∧ s.pc.toNat ≤ 4094 ∧ ∀ r ∈ opcodeRows, r.selects (fetchWord s) = false :=
  ⟨cycleNext_step rfl _, by decide, by decide⟩

theorem witness_StoredBytesAreFetchedNext_first : let s := State.reset.setI 0x200
    s.base + (1 : Nibble).toNat ≤ 4095 ∧ s.pc.toNat = s.base + 0 ∧ 0 + 1 ≤ (1 : Nibble).toNat := by decide
theorem witness_StoredBytesAreFetchedNext_last : let s := (State.reset.setI 4080).setPc 4094
    s.base + (15 : Nibble).toNat ≤ 4095 ∧ s.pc.toNat = s.base + 14 ∧ 14 + 1 ≤ (15 : Nibble).toNat := by decide

theorem witness_JumpGoesToItsTarget_end : ∃ t, exec (.jp 0xFFF) State.reset = .next t ∧ CycleNext t t :=
  ⟨_, rfl, cycleNext_turn rfl rfl⟩
theorem witness_JumpGoesToItsTarget_itself : let s := (State.reset.setPc 0xFFE).withFetchWord 16 0x1FFE
    CycleNext s s ∧ s.pc.toNat ≤ 4094 ∧ fetchWord s = encode (.jp 0xFFE) ∧ s.pc.toNat = (0xFFE : Addr12).toNat :=
  ⟨cycleNext_turn rfl rfl, by decide, by decide, by decide⟩

/-- A stack with one free entry. -/
def oneFree : State := State.reset.setStack (List.replicate (stackCapacity - 1) 0x202)
/-- A full stack. -/
def fullStack : State := State.reset.setStack (List.replicate stackCapacity 0x202)

theorem witness_CallPushesAndJumps_room : oneFree.sp < stackCapacity := by
  have := stackCapacity_pos
  simp [oneFree]; omega
theorem witness_CallPushesAndJumps_full : stackCapacity ≤ fullStack.sp := by simp [fullStack]

theorem witness_ReturnPopsIntoPc_entry : (State.reset.setStack [0x202]).stack = 0x202 :: [] := rfl
theorem witness_ReturnPopsIntoPc_empty : State.reset.sp = 0 := rfl

theorem witness_ReturnUndoesCall : ∃ t, State.reset.sp < stackCapacity ∧ exec (.call 0x300) State.reset = .next t ∧
    (t.setPc 0x400).stack = t.stack :=
  ⟨_, stackCapacity_pos, callWithin_room (c := stackCapacity) (i := .call 0x300) (s := State.reset) stackCapacity_pos, rfl⟩

theorem witness_SkipOnRegisters_unrecognized : (1 : Nibble) ≠ 0 := by decide

theorem witness_flag_is_not_the_destination : (0xE : Nibble) ≠ 0xF := by decide

theorem witness_CopyRegister_same : (0xF : Nibble) = 0xF := rfl

theorem witness_StoreRegistersWritesTheBlock : (State.reset.setI 0xFF0).base + (15 : Nibble).toNat ≤ 4095 := by decide
theorem witness_LoadRegistersReadsTheBlock : (State.reset.setI 0xFFF).base + (0 : Nibble).toNat ≤ 4095 := by decide
theorem witness_BcdStoresThreeDigits : (State.reset.setI 0xFFD).base + 2 ≤ 4095 := by decide
theorem witness_GlyphAddressOfAHexDigit : ((withRegs [(4, 15)] State.reset).getV 4).toNat ≤ 15 := by decide

theorem witness_AccessBeyondMemoryHalts_block : 4095 < (State.reset.setI 0xFF1).base + (15 : Nibble).toNat := by decide
theorem witness_AccessBeyondMemoryHalts_bcd : 4095 < (State.reset.setI 0xFFE).base + 2 := by decide
theorem witness_AccessBeyondMemoryHalts_draw : (15 : Nibble) ≠ 0 ∧
    4095 < (State.reset.setI 0xFF2).base + ((15 : Nibble).toNat - 1) := by decide
theorem witness_SelectorAboveFifteenHalts_ldF : Instr.ldF 4 ∈ [Instr.ldF 4, .skp 4, .sknp 4] ∧
    15 < ((withRegs [(4, 16)] State.reset).getV 4).toNat := by decide
theorem witness_SelectorAboveFifteenHalts_skp : Instr.skp 4 ∈ [Instr.ldF 4, .skp 4, .sknp 4] ∧
    15 < ((withRegs [(4, 16)] State.reset).getV 4).toNat := by decide
theorem witness_SelectorAboveFifteenHalts_sknp : Instr.sknp 4 ∈ [Instr.ldF 4, .skp 4, .sknp 4] ∧
    15 < ((withRegs [(4, 255)] State.reset).getV 4).toNat := by decide

theorem witness_MemoryReadsBackWhatWasWritten : let m : Memory := [(0x200, 0x12), (0xFFF, 0x34)]
    Memory.wf m ∧ Memory.wf (writeMem [(0xFFF, 0x34)] 0x200 0x12) ∧
      ∀ a, readMem m a = readMem (writeMem [(0xFFF, 0x34)] 0x200 0x12) a :=
  ⟨by decide, by decide, fun _ => rfl⟩

theorem witness_DrawTogglesExactlyTheSpriteCells_none : (0 : Nibble) = 0 ∨
    (State.reset.setI 0x1000).base + ((0 : Nibble).toNat - 1) ≤ 4095 := by decide
/-- A blank display, a sprite of one row with its left bit set, and the coordinates 63 and 31. -/
def corner : State := withRegs [(0, 63), (1, 31)] (withBytes 0xFFF [0x80] (State.reset.setI 0xFFF))
theorem witness_DrawTogglesExactlyTheSpriteCells_clear : ((1 : Nibble) = 0 ∨ corner.base + ((1 : Nibble).toNat - 1) ≤ 4095) ∧
    ¬ ∃ row < 32, ∃ col < 64, spriteCovers 0 1 1 corner row col = true ∧ cellAt corner.display row col = true := by
  refine ⟨by decide, ?_⟩
  rintro ⟨row, _, col, _, _, h⟩
  rw [show corner.display = blankDisplay from rfl, cellAt_blankDisplay] at h
  cases h
theorem witness_DrawTogglesExactlyTheSpriteCells_collision : ((1 : Nibble) = 0 ∨ corner.base + ((1 : Nibble).toNat - 1) ≤ 4095) ∧
    ∃ row < 32, ∃ col < 64, spriteCovers 0 1 1 (withCells [(63, 31)] corner) row col = true ∧
      cellAt (withCells [(63, 31)] corner).display row col = true :=
  ⟨by decide, 31, by decide, 63, by decide, by decide, by decide⟩

theorem witness_DrawingTwiceRestoresTheDisplay : (0 : Nibble) ≠ 0xF ∧ (1 : Nibble) ≠ 0xF ∧
    ((1 : Nibble) = 0 ∨ corner.base + ((1 : Nibble).toNat - 1) ≤ 4095) ∧ corner.display = blankDisplay ∧
    ∃ t u, exec (.drw 0 1 1) corner = .next t ∧ exec (.drw 0 1 1) t = .next u ∧ t.display ≠ blankDisplay := by
  refine ⟨by decide, by decide, by decide, rfl, _, _, rfl, rfl, fun h => ?_⟩
  have h := congrArg (fun d => cellAt d 31 63) h
  revert h
  decide

theorem witness_ClearTurnsEveryCellOff : ∀ t, exec .cls State.reset = .next t → State.reset.display = t.display := by
  intro t h
  rw [show exec .cls State.reset = .next (State.reset.setDisplay blankDisplay) from rfl] at h
  cases h
  rfl

theorem witness_KeySkipsTestTheKeyState_low : (State.reset.getV 5).toNat = (0 : Nibble).toNat := by decide
theorem witness_KeySkipsTestTheKeyState_high : ((withRegs [(5, 15)] State.reset).getV 5).toNat = (15 : Nibble).toNat := by decide

theorem witness_OnlyAPressEndsTheWait_idle : waiting.mode = .awaitingKey 1 ∧ waiting.env.schedule = [] := by decide
theorem witness_OnlyAPressEndsTheWait_press : let s := waiting.setSchedule [.keyDown 15]
    s.mode = .awaitingKey 1 ∧ s.env.schedule = .keyDown 15 :: [] := by decide
theorem witness_OnlyAPressEndsTheWait_step : let s := waiting.setSchedule [.cycle]
    s.mode = .awaitingKey 1 ∧ s.env.schedule = .cycle :: [] := by decide
theorem witness_OnlyAPressEndsTheWait_other : let s := waiting.setSchedule [.tick]
    s.mode = .awaitingKey 1 ∧ s.env.schedule = .tick :: [] ∧ Input.tick ∈ [Input.tick, .snapshot] := by decide
theorem witness_OnlyAPressEndsTheWait_release : let s := (waiting.setPressedCount 1).setSchedule [.keyUp 5]
    s.mode = .awaitingKey 1 ∧ s.env.schedule = .keyUp 5 :: [] ∧ (∃ k, Input.keyUp 5 = .keyUp k) ∧ 0 < s.pressedCount :=
  ⟨rfl, rfl, ⟨5, rfl⟩, by decide⟩

/-- The machine after reset runs, so it is not halted. -/
theorem reset_not_halted (l : List Input) : ¬ Halted (State.reset.setSchedule l) := by
  rintro ⟨r, h⟩
  cases h

theorem witness_TickCountsBothTimersDown : (State.reset.setSchedule [.tick]).env.schedule = .tick :: [] ∧
    ¬ Halted (State.reset.setSchedule [.tick]) := ⟨rfl, reset_not_halted _⟩
theorem witness_KeyDownMarksAndCounts : let s := State.reset.setSchedule [.keyDown 15]
    s.env.schedule = .keyDown 15 :: [] ∧ s.mode = .running := by decide
theorem witness_KeyUpCountsDownOrHalts_zero : let s := State.reset.setSchedule [.keyUp 5]
    s.env.schedule = .keyUp 5 :: [] ∧ ¬ Halted s ∧ s.pressedCount = 0 := ⟨rfl, reset_not_halted _, rfl⟩
theorem witness_KeyUpCountsDownOrHalts_one : let s := (State.reset.setSchedule [.keyUp 5]).setPressedCount 1
    s.env.schedule = .keyUp 5 :: [] ∧ ¬ Halted s ∧ 0 < s.pressedCount := ⟨rfl, reset_not_halted [], by decide⟩
theorem witness_SnapshotEmitsTheDisplay : (State.reset.setSchedule [.snapshot]).env.schedule = .snapshot :: [] := rfl

/-- An image of `n` bytes. -/
def imageOf (n : Nat) : List Byte := List.replicate n 0x60
theorem witness_LoadCopiesTheImage_longest : let s := State.reset.setSchedule [.load (imageOf 3584)]
    s.env.schedule = .load (imageOf 3584) :: [] ∧ ¬ Halted s ∧ s.loaderOpen = true ∧ (imageOf 3584).length ≤ 3584 :=
  ⟨rfl, reset_not_halted _, rfl, by rw [imageOf, List.length_replicate]⟩
theorem witness_LoadCopiesTheImage_tooLong : let s := State.reset.setSchedule [.load (imageOf 3585)]
    s.env.schedule = .load (imageOf 3585) :: [] ∧ ¬ Halted s ∧ s.loaderOpen = true ∧ 3584 < (imageOf 3585).length :=
  ⟨rfl, reset_not_halted _, rfl, by rw [imageOf, List.length_replicate]; decide⟩
theorem witness_LoadCopiesTheImage_closed : let s := State.reset.closeLoader.setSchedule [.load (imageOf 1)]
    s.env.schedule = .load (imageOf 1) :: [] ∧ ¬ Halted s ∧ s.loaderOpen = false := ⟨rfl, reset_not_halted [], rfl⟩
theorem witness_EntryPointIsTheLoadAddress : (imageOf 3582).length ≤ 3582 := by rw [imageOf, List.length_replicate]
theorem witness_ResetRestoresEveryPiece : let s := (State.reset.setPc 0x300).setSchedule [.reset]
    s.env.schedule = .reset :: [] := rfl
theorem witness_ResetStateIsAsSpecified_glyph : 15 < 16 ∧ 4 < 5 ∧ 5 * 15 + 4 < 80 := by decide
theorem witness_ResetStateIsAsSpecified_zero : (0x04F < 0x050 ∨ 0x0A0 ≤ 0x04F) ∧ (0x0A0 < 0x050 ∨ 0x0A0 ≤ 0x0A0) := by decide

/-- The record of a return with an empty stack at 0x200. -/
def underflow : FaultRecord := ⟨.stackUnderflow, some 0x00EE, some 0x200, none⟩
theorem witness_HaltedMachineStandsStill_stops : let s := State.reset.setMode (.halted underflow)
    s.mode = .halted underflow ∧ s.env.schedule = [] := by decide
theorem witness_HaltedMachineStandsStill_input : let s := (State.reset.setMode (.halted underflow)).setSchedule [.keyUp 5]
    s.mode = .halted underflow ∧ s.env.schedule = .keyUp 5 :: [] ∧ Input.keyUp 5 ≠ .reset := by decide

theorem witness_EveryStepKeepsTheInvariant : (boot 0x1234).Inv ∧ ∃ t, step (boot 0x1234) = .next t :=
  ⟨⟨writeBytes_wf reset_mem_wf (by decide), Nat.zero_le _, by simp [boot, State.withFetchWord, placeWord, State.reset],
    by decide⟩, _, rfl⟩

theorem witness_OnlySevenInstructionsWriteTheFlag_flag : writesFlag (.addReg 1 2) = true ∧
    ∃ t, exec (.addReg 1 2) State.reset = .next t := ⟨rfl, _, rfl⟩
theorem witness_OnlySevenInstructionsWriteTheFlag_other : writesFlag (.orReg 1 2) = false ∧
    (0xF : Nibble) ∉ namedDestination (.orReg 1 2) ∧ ∃ t, exec (.orReg 1 2) State.reset = .next t :=
  ⟨rfl, by decide, _, rfl⟩

theorem witness_FatalCyclesArePrecise_fetch : ∃ t, CycleNext (State.reset.setPc 4095) (State.reset.setPc 4095) ∧
    step (State.reset.setPc 4095) = .next t ∧ Halted t := ⟨_, cycleNext_turn rfl rfl, rfl, _, rfl⟩
theorem witness_FatalCyclesArePrecise_instruction : let s := (boot 0x00EE).setSchedule [.cycle, .tick]
    ∃ t, CycleNext s (s.setSchedule [.tick]) ∧ step s = .next t ∧ Halted t :=
  ⟨_, cycleNext_step rfl _, rfl, _, rfl⟩

theorem witness_ModeChangesAreTheStatedOnes_wait : ∃ t, step (boot 0xF10A) = .next t ∧ (boot 0xF10A).mode = .running ∧
    t.mode = .awaitingKey 1 := ⟨_, rfl, rfl, rfl⟩
theorem witness_ModeChangesAreTheStatedOnes_still : ∃ t, step waiting = .next t ∧ waiting.mode = .awaitingKey 1 ∧
    t.mode = .awaitingKey 1 := ⟨_, rfl, rfl, rfl⟩
theorem witness_ModeChangesAreTheStatedOnes_run : ∃ t, step (waiting.setSchedule [.keyDown 7]) = .next t ∧
    (waiting.setSchedule [.keyDown 7]).mode = .awaitingKey 1 ∧ t.mode = .running := ⟨_, rfl, rfl, rfl⟩
theorem witness_ModeChangesAreTheStatedOnes_reset : ∃ t,
    step ((State.reset.setMode (.halted underflow)).setSchedule [.reset]) = .next t ∧
      Halted ((State.reset.setMode (.halted underflow)).setSchedule [.reset]) ∧
      t.mode ≠ ((State.reset.setMode (.halted underflow)).setSchedule [.reset]).mode := ⟨_, rfl, ⟨_, rfl⟩, by decide⟩

theorem witness_OnlyStoresLoadsAndResetChangeMemory_load : let s := State.reset.setSchedule [.load [0x12]]
    ∃ t, step s = .next t ∧ t.readByte 0x200 ≠ s.readByte 0x200 := ⟨_, rfl, by decide⟩
theorem witness_OnlyStoresLoadsAndResetChangeMemory_store : let s := withRegs [(3, 255)] ((boot 0xF333).setI 0x400)
    ∃ t, step s = .next t ∧ t.readByte 0x402 ≠ s.readByte 0x402 := ⟨_, rfl, by decide⟩

theorem witness_OnlyKeyEventsChangeTheKeys : let s := State.reset.setSchedule [.keyDown 15]
    ∃ t, step s = .next t ∧ (t.key ≠ s.key ∨ t.pressedCount ≠ s.pressedCount) := ⟨_, rfl, .inr (by decide)⟩

theorem witness_DelayTimerRisesOnlyByItsInstruction : let s := withRegs [(0, 0x3C)] (boot 0xF015)
    ∃ t, step s = .next t ∧ (∀ rest, s.env.schedule ≠ .reset :: rest) ∧ t.dt.toNat = 0x3C :=
  ⟨_, rfl, fun _ h => (by cases h), by decide⟩

theorem witness_SoundTimerIsInvisible : ∃ t, step (boot 0xF018) = .next t := ⟨_, rfl⟩

theorem witness_ProgramAtRestStaysAtRest : AtRest (boot 0x1200) ∧ CycleNext (boot 0x1200) (boot 0x1200) :=
  ⟨⟨rfl, by decide, 0x200, by decide, by decide⟩, cycleNext_turn rfl rfl⟩

end Sys2Proof.Tests
end

section
/-! PROOFS. Facts about words and about frames that the proofs of the state family share: a word is the word its fields
make (R61, R62), a decoded word is the word of its instruction (R65), and a frame is one equation per piece. -/

namespace Sys2Proof

/-! ### A word from its own fields -/

theorem nnnWord_fields (w : Word) : (opOf w ++ nnnOf w : Word) = w := by
  apply BitVec.eq_of_toNat_eq
  rw [toNat_nnnWord, toNat_opOf, toNat_nnnOf]; omega

theorem xnnWord_fields (w : Word) : (opOf w ++ xOf w ++ nnOf w : Word) = w := by
  apply BitVec.eq_of_toNat_eq
  rw [toNat_xnnWord, toNat_opOf, toNat_xOf, toNat_nnOf]; omega

theorem xynWord_fields (w : Word) : (opOf w ++ xOf w ++ yOf w ++ nOf w : Word) = w := by
  apply BitVec.eq_of_toNat_eq
  rw [toNat_xynWord, toNat_opOf, toNat_xOf, toNat_yOf, toNat_nOf]; omega

/-! ### The word of a decoded instruction, first for each sub-table, then for the whole table (R65) -/

theorem encode_of_decodeFixed {w : Word} {i : Instr} (h : decodeFixed w = some i) : encode i = w := by
  unfold decodeFixed at h
  split at h
  · next hw => cases h; exact hw.symm
  · split at h
    · next hw => cases h; exact hw.symm
    · cases h

theorem encode_of_decodeAlu {x y n : Nibble} {i : Instr} (h : decodeAlu x y n = some i) :
    encode i = 0x8#4 ++ x ++ y ++ n := by
  unfold decodeAlu at h
  split at h <;> cases h <;> rfl

theorem encode_of_decodeKey {x : Nibble} {nn : Byte} {i : Instr} (h : decodeKey x nn = some i) :
    encode i = 0xE#4 ++ x ++ nn := by
  unfold decodeKey at h
  split at h <;> cases h <;> rfl

theorem encode_of_decodeMisc {x : Nibble} {nn : Byte} {i : Instr} (h : decodeMisc x nn = some i) :
    encode i = 0xF#4 ++ x ++ nn := by
  unfold decodeMisc at h
  split at h <;> cases h <;> rfl

/-- A word that decodes is the word of its instruction (R61, R65). -/
theorem encode_of_decodeWord {w : Word} {i : Instr} (h : decodeWord w = some i) : encode i = w := by
  have hnnn := nnnWord_fields w
  have hxnn := xnnWord_fields w
  have hxyn := xynWord_fields w
  generalize ho : opOf w = o at hnnn hxnn hxyn
  simp only [decodeWord, ho] at h
  split at h
  case h_1 => exact encode_of_decodeFixed h
  case h_9 => rw [encode_of_decodeAlu h, hxyn]
  case h_15 => rw [encode_of_decodeKey h, hxnn]
  case h_16 =>
    have hF : o = 0xF#4 := by clear hnnn hxnn hxyn ho h; revert o; decide
    rw [encode_of_decodeMisc h, ← hF, hxnn]
  case h_6 | h_10 =>
    split at h
    · next hn => cases h; rwa [hn] at hxyn
    · cases h
  all_goals cases h; assumption

end Sys2Proof

namespace Sys2Proof.Machine

/-! ### Frames -/

/-- A frame, piece by piece: the form in which `simp` decides the frame of a concrete update. -/
theorem keepsAllBut_iff {c : List Part} {s t : State} :
    KeepsAllBut c s t ↔
      (.regs ∉ c → t.v = s.v) ∧ (.pc ∉ c → t.pc = s.pc) ∧ (.index ∉ c → t.i = s.i) ∧
        (.memory ∉ c → ∀ a, t.readByte a = s.readByte a) ∧ (.stack ∉ c → t.stack = s.stack) ∧
        (.delayTimer ∉ c → t.dt = s.dt) ∧ (.soundTimer ∉ c → t.st = s.st) ∧ (.display ∉ c → t.display = s.display) ∧
        (.keys ∉ c → t.key = s.key ∧ t.pressedCount = s.pressedCount) ∧ (.mode ∉ c → t.mode = s.mode) ∧
        (.loader ∉ c → t.loaderOpen = s.loaderOpen) ∧ (.env ∉ c → t.env = s.env) := by
  constructor
  · intro h
    exact ⟨h .regs, h .pc, h .index, h .memory, h .stack, h .delayTimer, h .soundTimer, h .display, h .keys, h .mode,
      h .loader, h .env⟩
  · rintro ⟨hregs, hpc, hindex, hmem, hstack, hdt, hst, hdisplay, hkeys, hmode, hloader, henv⟩ p
    cases p <;> assumption

theorem RegsKeptBut.refl (c : List Nibble) (s : State) : RegsKeptBut c s s := fun _ _ => rfl

theorem setV_regsKeptBut (s : State) (x : Nibble) (b : Byte) : RegsKeptBut [x] s (s.setV x b) :=
  fun _ hy => s.getV_setV_other (by simpa using hy) b

theorem setFlag_regsKeptBut (s : State) (c : Bool) : RegsKeptBut [0xF] s (s.setFlag c) :=
  setV_regsKeptBut s 0xF (flagByte c)

theorem setVFlag_regsKeptBut (s : State) (x : Nibble) (b : Byte) (c : Bool) :
    RegsKeptBut [x, 0xF] s (s.setVFlag x b c) := by
  intro y hy
  rw [List.mem_cons, List.mem_singleton, not_or] at hy
  exact getV_setVFlag_other hy.1 hy.2 b c s

theorem loadBlock_regsKeptBut (s : State) (x : Nibble) : RegsKeptBut (namedDestination (.loadRegs x)) s (loadBlock x s) := by
  intro y hy
  rw [getV_loadBlock, if_neg]
  intro hle
  exact hy (List.mem_map.2 ⟨y.toNat, List.mem_range.2 (by omega), BitVec.ofNat_toNat ..⟩)

/-- A write of bytes keeps every byte of memory outside the block. -/
theorem memoryKeptOutside_writeBytes {s t : State} {a : Nat} {l : List Byte} (h : t.mem = writeBytes s.mem a l) :
    MemoryKeptOutside a l.length s t := by
  intro b hb
  rw [State.readByte, h]
  exact readMem_writeBytes_outside hb

end Sys2Proof.Machine
end

section
/-! PROOFS. Everything an instruction can do, said once: it raises a fatal condition, or it has its effect, a function of
the state; and what that effect does to each piece of the state. -/

namespace Sys2Proof.Machine

/-- What an instruction does to the state where it meets no fatal condition; `exec_cases` ties it to `exec`. -/
def effect : Instr → State → State
  | .cls, s => s.setDisplay blankDisplay
  | .ret, s => (s.setStack s.stack.tail).setPc (s.stack.headD s.pc)
  | .jp nnn, s => s.setPc (zextAddr nnn)
  | .call nnn, s => (s.setStack (s.pc :: s.stack)).setPc (zextAddr nnn)
  | .seImm x nn, s => skipIf (decide (s.getV x = nn)) s
  | .sneImm x nn, s => skipIf (decide (s.getV x ≠ nn)) s
  | .seReg x y, s => skipIf (decide (s.getV x = s.getV y)) s
  | .sneReg x y, s => skipIf (decide (s.getV x ≠ s.getV y)) s
  | .ldImm x nn, s => s.setV x nn
  | .addImm x nn, s => s.setV x (s.getV x + nn)
  | .ldReg x y, s => s.setV x (s.getV y)
  | .orReg x y, s => s.setV x (s.getV x ||| s.getV y)
  | .andReg x y, s => s.setV x (s.getV x &&& s.getV y)
  | .xorReg x y, s => s.setV x (s.getV x ^^^ s.getV y)
  | .addReg x y, s => s.setVFlag x (s.getV x + s.getV y) (carryFlag (s.getV x) (s.getV y))
  | .sub x y, s => s.setVFlag x (s.getV x - s.getV y) (notBorrowFlag (s.getV x) (s.getV y))
  | .shr x y, s => s.setVFlag x (s.getV y >>> 1) (shiftOutRight (s.getV y))
  | .subn x y, s => s.setVFlag x (s.getV y - s.getV x) (notBorrowFlag (s.getV y) (s.getV x))
  | .shl x y, s => s.setVFlag x (s.getV y <<< 1) (shiftOutLeft (s.getV y))
  | .ldI nnn, s => s.setI (zextAddr nnn)
  | .jpV0 nnn, s => s.setPc (zextAddr nnn + zextByte (s.getV 0))
  | .rnd x nn, s => rndWith (randomByte s.env.draws) x nn s.countDraw
  | .drw x y n, s =>
    (s.setDisplay (drawSprite s.mem s.base (startColumn x s) (startRow y s) n.toNat s.display).1).setFlag
      (drawSprite s.mem s.base (startColumn x s) (startRow y s) n.toNat s.display).2
  | .skp x, s => skipIf (s.getKey ((s.getV x).setWidth 4)) s
  | .sknp x, s => skipIf (!s.getKey ((s.getV x).setWidth 4)) s
  | .readDt x, s => s.setV x s.dt
  | .waitKey x, s => s.setMode (.awaitingKey x)
  | .setDt x, s => s.setDt (s.getV x)
  | .setSt x, s => s.setSt (s.getV x)
  | .addI x, s => (s.setI (s.i + zextByte (s.getV x))).setFlag (indexOverflowFlag s.i (s.getV x))
  | .ldF x, s => s.setI (glyphAddress ((s.getV x).setWidth 4))
  | .ldB x, s => s.setMem (writeBytes s.mem s.base (bcdDigits (s.getV x)))
  | .storeRegs x, s =>
    advanceIndex loadStoreIncrement x (s.setMem (writeBytes s.mem s.base (registerBlock x s)))
  | .loadRegs x, s => advanceIndex loadStoreIncrement x (loadBlock x s)

/-- What an instruction that has its effect has found: room on the stack for a call, and its stored bytes inside
memory. -/
def Permitted : Instr → State → Prop
  | .call _, s => s.sp < stackCapacity
  | i, s => storedCount i = 0 ∨ s.base + storedCount i ≤ 4096

/-- The fatal conditions of the execute phase: neither that of the fetch nor that of a release. -/
def FatalKind.ofInstr (kind : FatalKind) : Prop := kind ≠ .fetchOutOfBounds ∧ kind ≠ .keyCountNegative

/-- An instruction has its effect, or is one of the fatal conditions of the execute phase. -/
def EffectOrRaise (i : Instr) (s : State) : Prop :=
  (exec i s = .next (effect i s) ∧ Permitted i s) ∨ ∃ kind d, kind.ofInstr ∧ exec i s = raise kind i d s

theorem effectOrRaise_of_checkedAccess {i : Instr} {s : State} (n : Nat)
    (h : exec i s = checkedAccess i n s (effect i s)) (hp : n = 0 ∨ s.base + n ≤ 4096 → Permitted i s) :
    EffectOrRaise i s := by
  obtain ⟨hok, hin⟩ | ⟨d, hraise⟩ := checkedAccess_cases i n s (effect i s)
  · exact .inl ⟨h.trans hok, hp hin⟩
  · exact .inr ⟨_, d, by simp [FatalKind.ofInstr], h.trans hraise⟩

theorem effectOrRaise_of_checkedSelector {i : Instr} {x : Nibble} {s : State} (ok : Nibble → State)
    (h : exec i s = checkedSelector i x s ok) (he : effect i s = ok ((s.getV x).setWidth 4)) (hp : Permitted i s) :
    EffectOrRaise i s := by
  obtain hok | ⟨d, hraise⟩ := checkedSelector_cases i x s ok
  · exact .inl ⟨by rw [h, hok, he], hp⟩
  · exact .inr ⟨_, d, by simp [FatalKind.ofInstr], h.trans hraise⟩

/-- Everything `exec` can answer. -/
theorem exec_cases (i : Instr) (s : State) : EffectOrRaise i s := by
  cases i with
  | ret =>
    obtain ⟨a, rest, hs, h⟩ | h := popInto_cases .ret s
    · exact .inl ⟨h.trans (by simp [effect, hs]), .inl rfl⟩
    · exact .inr ⟨_, none, by simp [FatalKind.ofInstr], h⟩
  | call nnn =>
    obtain h | h := callWithin_cases stackCapacity (.call nnn) (zextAddr nnn) s
    · exact .inl h
    · exact .inr ⟨_, none, by simp [FatalKind.ofInstr], h⟩
  | drw x y n => exact effectOrRaise_of_checkedAccess n.toNat rfl fun _ => .inl rfl
  | loadRegs x => exact effectOrRaise_of_checkedAccess (x.toNat + 1) rfl fun _ => .inl rfl
  | ldB x => exact effectOrRaise_of_checkedAccess 3 rfl id
  | storeRegs x => exact effectOrRaise_of_checkedAccess (x.toNat + 1) rfl id
  | ldF x => exact effectOrRaise_of_checkedSelector (fun k => s.setI (glyphAddress k)) rfl rfl (.inl rfl)
  | skp x => exact effectOrRaise_of_checkedSelector (fun k => skipIf (s.getKey k) s) rfl rfl (.inl rfl)
  | sknp x => exact effectOrRaise_of_checkedSelector (fun k => skipIf (!s.getKey k) s) rfl rfl (.inl rfl)
  | _ => exact .inl ⟨rfl, .inl rfl⟩

/-- The two outcomes of an instruction, read from a next state it has answered. -/
theorem exec_next_cases {i : Instr} {s t : State} (h : exec i s = .next t) :
    (t = effect i s ∧ Permitted i s) ∨
      ∃ kind d, kind.ofInstr ∧ t = s.setMode (.halted ⟨kind, some (encode i), some (s.pc - 2), d⟩) := by
  obtain ⟨he, hp⟩ | ⟨kind, d, hk, he⟩ := exec_cases i s
  · exact .inl ⟨Host.Outcome.next.inj (h.symm.trans he), hp⟩
  · exact .inr ⟨kind, d, hk, Host.Outcome.next.inj (h.symm.trans he)⟩

/-! ### What the effect leaves unchanged -/

/-- An effect stays inside the pieces the spec lets the instruction write. -/
theorem effect_keepsAllBut (i : Instr) (s : State) : KeepsAllBut (writableParts i) s (effect i s) := by
  cases i <;> simp [keepsAllBut_iff, writableParts, effect]

/-- An effect stays inside the registers the spec lets the instruction write. -/
theorem effect_regsKeptBut (i : Instr) (s : State) : RegsKeptBut (writableRegs i) s (effect i s) := by
  cases i with
  | ldImm x | addImm x | ldReg x | orReg x | andReg x | xorReg x | readDt x => exact setV_regsKeptBut s x _
  | rnd x => exact setV_regsKeptBut s.countDraw x _
  | addReg x | sub x | shr x | subn x | shl x => exact setVFlag_regsKeptBut s x _ _
  | addI x => exact setFlag_regsKeptBut (s.setI _) _
  | drw => exact setFlag_regsKeptBut (s.setDisplay _) _
  | loadRegs x =>
    intro y hy
    rw [effect, getV_advanceIndex]
    exact loadBlock_regsKeptBut s x y (by simpa [writableRegs, writesFlag] using hy)
  | seImm | sneImm | seReg | sneReg | skp | sknp => exact fun y _ => getV_skipIf _ s y
  | _ => exact RegsKeptBut.refl _ s

/-! ### What the effect writes to memory, `pc`, the stack and the flag -/

/-- The bytes an instruction stores from `I` upward (R122, R124). -/
def storedBytes : Instr → State → List Byte
  | .ldB x, s => bcdDigits (s.getV x)
  | .storeRegs x, s => registerBlock x s
  | _, _ => []

theorem storedBytes_length (i : Instr) (s : State) : (storedBytes i s).length = storedCount i := by
  cases i with
  | storeRegs x => exact registerBlock_length x s
  | _ => rfl

/-- Every instruction's memory is the old one with its stored bytes written from `I` upward. -/
theorem effect_mem (i : Instr) (s : State) : (effect i s).mem = writeBytes s.mem s.base (storedBytes i s) := by
  cases i with
  | seImm | sneImm | seReg | sneReg | skp | sknp => exact skipIf_mem _ s
  | _ => rfl

theorem effect_memoryKeptOutside (i : Instr) (s : State) :
    MemoryKeptOutside s.base (storedCount i) s (effect i s) := by
  rw [← storedBytes_length i s]
  exact memoryKeptOutside_writeBytes (effect_mem i s)

/-- A store inside memory keeps the canonical form. -/
theorem effect_mem_wf {i : Instr} {s : State} (hp : Permitted i s) (hwf : s.mem.wf) : (effect i s).mem.wf := by
  have hlen := storedBytes_length i s
  rw [effect_mem]
  have hin : storedCount i = 0 ∨ s.base + storedCount i ≤ 4096 := by
    cases i with
    | call => exact .inl rfl
    | _ => exact hp
  obtain h0 | hin := hin
  · rw [List.length_eq_zero_iff.1 (hlen.trans h0)]
    exact hwf
  · exact writeBytes_wf hwf (by rw [hlen]; exact hin)

/-- A flag writer's effect ends in the flag, so it leaves 0 or 1 in `VF` (R11, R100). -/
theorem effect_flag {i : Instr} (h : writesFlag i = true) (s : State) :
    (effect i s).getV 0xF = 0 ∨ (effect i s).getV 0xF = 1 := by
  have hflag : ∃ u c, effect i s = State.setFlag u c := by
    cases i with
    | addReg | sub | shr | subn | shl | addI | drw => exact ⟨_, _, rfl⟩
    | _ => cases h
  obtain ⟨u, c, hu⟩ := hflag
  rw [hu, getV_setFlag_F]
  exact flagByte_cases c

/-! ### Which instructions write a piece -/

theorem mode_mem_writableParts {i : Instr} : .mode ∈ writableParts i ↔ ∃ x, i = .waitKey x := by
  cases i <;> simp [writableParts]

theorem memory_mem_writableParts {i : Instr} : .memory ∈ writableParts i ↔ ∃ x, i = .ldB x ∨ i = .storeRegs x := by
  cases i <;> simp [writableParts]

theorem keys_notMem_writableParts (i : Instr) : .keys ∉ writableParts i := by
  cases i <;> simp [writableParts]

end Sys2Proof.Machine
end

section
/-! PROOFS. Everything an engine cycle and a step can lead to, one named case each, with the state each case leads to
written as named updates of the state before it. -/

namespace Sys2Proof.Machine

/-- The states an engine cycle of `u` leads to. -/
inductive CycleTo (u : State) : State → Prop
  /-- The fetch is out of bounds (R64). -/
  | fetchFails (hpc : 4094 < u.pc.toNat) :
      CycleTo u (u.setMode (.halted ⟨.fetchOutOfBounds, none, some u.pc, some u.pc.toNat⟩))
  /-- The instruction is fatal; the record names the word fetched and its address (R171). -/
  | raises (i : Instr) (kind : FatalKind) (d : Option Nat) (hpc : u.pc.toNat ≤ 4094)
      (hi : decodeWord (fetchWord u) = some i) (hkind : kind.ofInstr) :
      CycleTo u ((afterFetch u).setMode (.halted ⟨kind, some (fetchWord u), some u.pc, d⟩))
  /-- The instruction has its effect. -/
  | executes (i : Instr) (hpc : u.pc.toNat ≤ 4094) (hi : decodeWord (fetchWord u) = some i)
      (hp : Permitted i (afterFetch u)) : CycleTo u (effect i (afterFetch u))
  /-- The word is unrecognized (R175). -/
  | reports (hpc : u.pc.toNat ≤ 4094) (hi : decodeWord (fetchWord u) = none) :
      CycleTo u ((afterFetch u).emit (.unrecognized (fetchWord u) u.pc))

theorem cycleTo_of_engineCycle {u t : State} (h : engineCycle u = .next t) : CycleTo u t := by
  obtain ⟨hpc, rfl⟩ | ⟨hpc, i, hi, he⟩ | ⟨hpc, hi, rfl⟩ := engineCycle_cases h
  · exact .fetchFails hpc
  · obtain ⟨rfl, hp⟩ | ⟨kind, d, hkind, rfl⟩ := exec_next_cases he
    · exact .executes i hpc hi hp
    · rw [encode_of_decodeWord hi, afterFetch_pc, BitVec.add_sub_cancel]
      exact .raises i kind d hpc hi hkind
  · exact .reports hpc hi

/-- The states a step of `s` leads to. -/
inductive StepTo (s : State) : State → Prop
  | cycle {u t : State} (hu : CycleNext s u) (ht : CycleTo u t) : StepTo s t
  /-- A wait with nothing scheduled (R187). -/
  | waits (hs : s.env.schedule = []) (hm : s.mode ≠ .running) : StepTo s s
  /-- An input that is not enabled (log entry 5). -/
  | ignores {e : Input} {rest : List Input} (hs : s.env.schedule = e :: rest) (hm : s.mode ≠ .running) :
      StepTo s (s.setSchedule rest)
  | resets {rest : List Input} (hs : s.env.schedule = .reset :: rest) : StepTo s (resetEvent (s.setSchedule rest))
  | snapshots {rest : List Input} (hs : s.env.schedule = .snapshot :: rest) :
      StepTo s ((s.setSchedule rest).emit (.snapshot s.display))
  | ticks {rest : List Input} (hs : s.env.schedule = .tick :: rest) :
      StepTo s (((s.setSchedule rest).setDt (countdown s.dt)).setSt (countdown s.st))
  /-- A press while the engine runs (R185). -/
  | presses {k : Nibble} {rest : List Input} (hs : s.env.schedule = .keyDown k :: rest) (hm : s.mode = .running) :
      StepTo s (((s.setSchedule rest).setPressedCount (s.pressedCount + 1)).setKey k true)
  /-- A press that ends a wait (R155). -/
  | pressEndsWait {k x : Nibble} {rest : List Input} (hs : s.env.schedule = .keyDown k :: rest)
      (hm : s.mode = .awaitingKey x) :
      StepTo s (((((s.setSchedule rest).setPressedCount (s.pressedCount + 1)).setKey k true).setV x
        (zextNibble k)).setMode .running)
  | releases {k : Nibble} {rest : List Input} (hs : s.env.schedule = .keyUp k :: rest) :
      StepTo s (((s.setSchedule rest).setPressedCount (s.pressedCount - 1)).setKey k false)
  /-- A release at count 0 (R186). -/
  | releaseHalts {k : Nibble} {rest : List Input} (hs : s.env.schedule = .keyUp k :: rest) (hm : ¬ Halted s) :
      StepTo s ((s.setSchedule rest).setMode (.halted ⟨.keyCountNegative, none, none, some k.toNat⟩))
  | loads {image : List Byte} {rest : List Input} (hs : s.env.schedule = .load image :: rest)
      (hopen : s.loaderOpen = true) (hlen : image.length ≤ 3584) :
      StepTo s (((s.setSchedule rest).setMem (writeBytes s.mem 0x200 image)).closeLoader)

/-- A machine that is not halted runs or waits. -/
theorem running_or_awaiting {s : State} (h : ¬ Halted s) : s.mode = .running ∨ ∃ x, s.mode = .awaitingKey x := by
  cases hm : s.mode with
  | running => exact .inl rfl
  | awaitingKey x => exact .inr ⟨x, rfl⟩
  | halted r => exact absurd ⟨r, hm⟩ h

theorem Halted.not_running {s : State} (h : Halted s) : s.mode ≠ .running := by
  obtain ⟨r, hr⟩ := h
  simp [hr]

/-- A halted machine takes every input but a snapshot and a reset without effect (R171, log entry 5). -/
theorem takeInput_halted {s : State} {e : Input} (hm : Halted s) (hr : e ≠ .reset) (hs : e ≠ .snapshot) :
    takeInput e s = .next s := by
  obtain ⟨r, hm⟩ := hm
  cases e <;> simp_all [takeInput]

/-- A scheduled `Step` of a machine that is not halted is the engine's turn (R195). -/
theorem takeInput_cycle {s : State} (hm : ¬ Halted s) : takeInput .cycle s = engineTurn s := by
  obtain hm | ⟨x, hm⟩ := running_or_awaiting hm <;> simp [takeInput, engineTurn, hm]

theorem stepTo_of_step {s t : State} (h : step s = .next t) : StepTo s t := by
  obtain ⟨hs, hm, hc⟩ | ⟨hs, ⟨x, hm⟩, rfl⟩ | ⟨e, rest, hs, ht⟩ := step_cases h
  · exact .cycle ⟨hm, .inl ⟨hs, rfl⟩⟩ (cycleTo_of_engineCycle hc)
  · exact .waits hs (by simp [hm])
  obtain ⟨rfl, rfl⟩ | ⟨rfl, rfl⟩ | ⟨hm, -, -, rfl⟩ | ⟨rfl, hm, hc⟩ | ⟨rfl, ⟨x, hm⟩, rfl⟩ | ⟨rfl, -, rfl⟩ |
    ⟨k, rfl, hm, rfl⟩ | ⟨k, rfl, hm, hk⟩ | ⟨image, rfl, -, hl⟩ := takeInput_cases ht
  · exact .resets hs
  · exact .snapshots hs
  · exact .ignores hs hm.not_running
  · exact .cycle ⟨hm, .inr ⟨rest, hs, rfl⟩⟩ (cycleTo_of_engineCycle hc)
  · exact .ignores hs fun hr => Mode.noConfusion (hm.symm.trans hr)
  · exact .ticks hs
  · obtain hm | ⟨x, hm⟩ := running_or_awaiting hm
    · rw [keyDown_running k hm]
      exact .presses hs hm
    · rw [keyDown_awaiting k hm]
      exact .pressEndsWait hs hm
  · obtain ⟨-, hu⟩ | ⟨-, hu⟩ := keyUp_cases k (s.setSchedule rest) <;> cases hu.symm.trans hk
    · exact .releases hs
    · exact .releaseHalts hs hm
  · obtain ⟨hopen, hlen, rfl⟩ := loadImage_next hl
    exact .loads hs hopen hlen

/-- The states an engine cycle leads to, from the state the step began in. -/
theorem cycleTo_of_step {s u t : State} (hu : CycleNext s u) (h : step s = .next t) : CycleTo u t :=
  cycleTo_of_engineCycle ((step_cycle hu).symm.trans h)

/-! ### Pieces an engine cycle leaves unchanged -/

theorem CycleTo.keys {u t : State} (h : CycleTo u t) : t.key = u.key ∧ t.pressedCount = u.pressedCount := by
  cases h with
  | executes i => exact effect_keepsAllBut i (afterFetch u) .keys (keys_notMem_writableParts i)
  | _ => exact ⟨rfl, rfl⟩

/-- A cycle changes memory only by an instruction that stores. -/
theorem CycleTo.memory {u t : State} (h : CycleTo u t) :
    (∀ a, t.readByte a = u.readByte a) ∨
      ∃ x, decodeWord (fetchWord u) = some (.ldB x) ∨ decodeWord (fetchWord u) = some (.storeRegs x) := by
  cases h with
  | executes i hpc hi =>
    by_cases hw : .memory ∈ writableParts i
    · obtain ⟨x, rfl | rfl⟩ := memory_mem_writableParts.1 hw
      · exact .inr ⟨x, .inl hi⟩
      · exact .inr ⟨x, .inr hi⟩
    · exact .inl (effect_keepsAllBut i (afterFetch u) .memory hw)
  | _ => exact .inl fun _ => rfl

/-- A cycle changes the mode only by halting or by `LD Vx, K`. -/
theorem CycleTo.mode {u t : State} (h : CycleTo u t) :
    t.mode = u.mode ∨ Halted t ∨ ∃ x, decodeWord (fetchWord u) = some (.waitKey x) ∧ t.mode = .awaitingKey x := by
  cases h with
  | fetchFails | raises => exact .inr (.inl ⟨_, rfl⟩)
  | reports => exact .inl rfl
  | executes i hpc hi =>
    by_cases hw : .mode ∈ writableParts i
    · obtain ⟨x, rfl⟩ := mode_mem_writableParts.1 hw
      exact .inr (.inr ⟨x, hi, rfl⟩)
    · exact .inl (effect_keepsAllBut i (afterFetch u) .mode hw)

/-- A mode that an instruction's effect leaves is not halted, unless it was before. -/
theorem effect_not_halted {i : Instr} {s : State} (h : ¬ Halted s) : ¬ Halted (effect i s) := by
  rintro ⟨r, hr⟩
  by_cases hw : .mode ∈ writableParts i
  · obtain ⟨x, rfl⟩ := mode_mem_writableParts.1 hw
    cases hr
  · exact h ⟨r, (effect_keepsAllBut i s .mode hw).symm.trans hr⟩

/-! ### How a step changes the mode -/

theorem StepTo.mode {s t : State} (h : StepTo s t) :
    t.mode = s.mode ∨ (∃ rest, s.env.schedule = .reset :: rest ∧ t.mode = .running) ∨ (¬ Halted s ∧ Halted t) ∨
      (∃ k x rest, s.env.schedule = .keyDown k :: rest ∧ s.mode = .awaitingKey x ∧ t.mode = .running) ∨
      s.mode = .running ∧ ∃ x, decodeWord (fetchWord s) = some (.waitKey x) ∧ t.mode = .awaitingKey x := by
  cases h with
  | cycle hu ht =>
    have hm := hu.1
    have hum := (cycleNext_keeps hu .mode (by simp)).trans hm
    obtain h | h | ⟨x, hi, h⟩ := ht.mode
    · exact .inl (h.trans (hum.trans hm.symm))
    · exact .inr (.inr (.inl ⟨fun hh => hh.not_running hm, h⟩))
    · exact .inr (.inr (.inr (.inr ⟨hm, x, cycleNext_fetchWord hu ▸ hi, h⟩)))
  | resets hs => exact .inr (.inl ⟨_, hs, rfl⟩)
  | pressEndsWait hs hm => exact .inr (.inr (.inr (.inl ⟨_, _, _, hs, hm, rfl⟩)))
  | releaseHalts hs hm => exact .inr (.inr (.inl ⟨hm, _, rfl⟩))
  | _ => exact .inl rfl

end Sys2Proof.Machine
end

section
/-! PROOFS. The two step lemmas of tier 3: every step keeps the invariant, and no step depends on the sound timer. -/

namespace Sys2Proof.Machine

/-! ### The invariant -/

/-- The invariant reads memory, the stack and `pc` only. -/
theorem State.Inv.congr {s t : State} (h : s.Inv) (hmem : t.mem = s.mem) (hstack : t.stack = s.stack)
    (hpc : t.pc = s.pc) : t.Inv := by
  unfold State.Inv State.sp
  rw [hmem, hstack, hpc]
  exact h

theorem reset_inv : State.reset.Inv :=
  ⟨reset_mem_wf, Nat.zero_le _, by simp [State.reset], by decide⟩

theorem toNat_zextAddr (nnn : Addr12) : (zextAddr nnn).toNat = nnn.toNat := by
  simp [zextAddr]; omega

theorem toNat_zextByte (b : Byte) : (zextByte b).toNat = b.toNat := by
  simp [zextByte]; omega

theorem toNat_add_two_le (a : Word) : (a + 2).toNat ≤ a.toNat + 2 := by
  rw [BitVec.toNat_add]
  exact Nat.mod_le _ _

/-- A skip moves `pc` up by at most 2 (R88). -/
theorem toNat_skipIf_pc_le (c : Bool) {s : State} (h : s.pc.toNat ≤ 4096) : (skipIf c s).pc.toNat ≤ 4098 := by
  have := toNat_add_two_le s.pc
  rw [skipIf_pc]
  split <;> omega

/-- The largest `pc` an instruction at an address up to 4094 leaves is that of `JP V0` (R12, R87). -/
theorem toNat_effect_pc_le (i : Instr) {s : State} (hpc : s.pc.toNat ≤ 4096)
    (hstack : ∀ a ∈ s.stack, a.toNat ≤ 0x1000) : (effect i s).pc.toNat ≤ 0x10FE := by
  cases i with
  | ret =>
    cases hs : s.stack with
    | nil => simp [effect, hs]; omega
    | cons a rest =>
      have := hstack a (by simp [hs])
      simp [effect, hs]; omega
  | jp nnn | call nnn =>
    have := nnn.isLt
    simp only [effect, State.setPc_pc, toNat_zextAddr]; omega
  | jpV0 nnn =>
    have := nnn.isLt
    have := (s.getV 0).isLt
    simp only [effect, State.setPc_pc, BitVec.toNat_add, toNat_zextAddr, toNat_zextByte]; omega
  | seImm | sneImm | seReg | sneReg | skp | sknp => exact (toNat_skipIf_pc_le _ hpc).trans (by decide)
  | _ =>
    rw [(effect_keepsAllBut _ s) .pc (by simp [writableParts])]
    omega

/-- A call pushes a `pc` that is at most 0x1000, a return drops an entry, no other instruction writes the stack (R16). -/
theorem effect_stack (i : Instr) {s : State} (hp : Permitted i s) (hsp : s.sp ≤ stackCapacity)
    (hpc : s.pc.toNat ≤ 4096) (hstack : ∀ a ∈ s.stack, a.toNat ≤ 0x1000) :
    (effect i s).sp ≤ stackCapacity ∧ ∀ a ∈ (effect i s).stack, a.toNat ≤ 0x1000 := by
  cases i with
  | ret =>
    refine ⟨?_, fun a ha => hstack a (List.mem_of_mem_tail ha)⟩
    simp only [effect, State.sp_setPc, State.sp_setStack, List.length_tail]
    exact (Nat.sub_le _ _).trans hsp
  | call nnn => exact ⟨hp, List.forall_mem_cons.2 ⟨hpc, hstack⟩⟩
  | _ =>
    rw [State.sp, (effect_keepsAllBut _ s) .stack (by simp [writableParts])]
    exact ⟨hsp, hstack⟩

theorem CycleTo.inv {u t : State} (h : CycleTo u t) (hinv : u.Inv) : t.Inv := by
  obtain ⟨hwf, hsp, hstack, hpcInv⟩ := hinv
  have hnext : u.pc.toNat ≤ 4094 → (afterFetch u).pc.toNat ≤ 4096 := by
    have := toNat_add_two_le u.pc
    rw [afterFetch_pc]; omega
  have hafter : u.pc.toNat ≤ 4094 → (afterFetch u).Inv := fun hpc =>
    ⟨hwf, hsp, hstack, (hnext hpc).trans (by decide)⟩
  cases h with
  | fetchFails => exact ⟨hwf, hsp, hstack, hpcInv⟩
  | raises _ _ _ hpc | reports hpc => exact (hafter hpc).congr rfl rfl rfl
  | executes i hpc hi hp =>
    obtain ⟨hsp', hstack'⟩ := effect_stack i hp hsp (hnext hpc) hstack
    exact ⟨effect_mem_wf hp hwf, hsp', hstack', toNat_effect_pc_le i (hnext hpc) hstack⟩

/-- Settles O50. -/
theorem resetMeetsTheInvariant : Obligations.ResetMeetsTheInvariant := reset_inv

/-- Settles O51, by the cases of a step: an engine cycle keeps the invariant by `CycleTo.inv`, a load writes inside
memory, a reset meets it anew, and no other step touches what it reads. -/
theorem everyStepKeepsTheInvariant : Obligations.EveryStepKeepsTheInvariant := by
  intro s t hinv h
  cases stepTo_of_step h with
  | cycle hu ht =>
    obtain ⟨-, ⟨-, rfl⟩ | ⟨rest, -, rfl⟩⟩ := hu
    · exact ht.inv hinv
    · exact ht.inv (hinv.congr rfl rfl rfl)
  | loads hs hopen hlen =>
    obtain ⟨hwf, hsp, hstack, hpc⟩ := hinv
    exact ⟨writeBytes_wf hwf (by rw [Config.memSize]; omega), hsp, hstack, hpc⟩
  | resets => exact reset_inv.congr rfl rfl rfl
  | _ => exact hinv.congr rfl rfl rfl

/-! ### The sound timer -/

/-- An answer with `ST` replaced in its next state. -/
def withSt (c : Byte) : Result → Result
  | .next t => .next (t.setSt c)
  | .fault r => .fault r
  | .refused r => .refused r

theorem raise_setSt (kind : FatalKind) (i : Instr) (d : Option Nat) (s : State) (b : Byte) :
    raise kind i d (s.setSt b) = withSt b (raise kind i d s) := rfl

theorem checkedAccess_setSt (i : Instr) (n : Nat) (s ok : State) (b : Byte) :
    checkedAccess i n (s.setSt b) (ok.setSt b) = withSt b (checkedAccess i n s ok) := by
  unfold checkedAccess
  rw [apply_ite (withSt b)]
  rfl

theorem checkedSelector_setSt (i : Instr) (x : Nibble) (s : State) (b : Byte) {ok ok' : Nibble → State}
    (h : ∀ k, ok' k = (ok k).setSt b) :
    checkedSelector i x (s.setSt b) ok' = withSt b (checkedSelector i x s ok) := by
  unfold checkedSelector
  rw [h, apply_ite (withSt b)]
  rfl

theorem callWithin_setSt (c : Nat) (i : Instr) (a : Word) (s : State) (b : Byte) :
    callWithin c i a (s.setSt b) = withSt b (callWithin c i a s) := by
  unfold callWithin
  rw [apply_ite (withSt b)]
  rfl

theorem popInto_setSt (i : Instr) (s : State) (b : Byte) :
    popInto i (s.setSt b) = withSt b (popInto i s) := by
  cases hs : s.stack with
  | nil => rw [popInto_nil hs, popInto_nil (s := s.setSt b) hs, raise_setSt]
  | cons a rest => rw [popInto_cons hs, popInto_cons (s := s.setSt b) hs]; rfl

theorem skipIf_setSt (c : Bool) (s : State) (b : Byte) : skipIf c (s.setSt b) = (skipIf c s).setSt b := by
  cases c <;> rfl

/-- An instruction answers the same with another `ST`, but for `ST` itself. -/
theorem exec_setSt (i : Instr) (s : State) (b : Byte) : ∃ c, exec i (s.setSt b) = withSt c (exec i s) := by
  cases i with
  | setSt x => exact ⟨s.getV x, rfl⟩
  | ret => exact ⟨b, popInto_setSt .ret s b⟩
  | call nnn => exact ⟨b, callWithin_setSt stackCapacity (.call nnn) (zextAddr nnn) s b⟩
  | seImm | sneImm | seReg | sneReg => exact ⟨b, congrArg Host.Outcome.next (skipIf_setSt _ s b)⟩
  | drw x y n => exact ⟨b, checkedAccess_setSt (.drw x y n) n.toNat s (effect (.drw x y n) s) b⟩
  | ldB x => exact ⟨b, checkedAccess_setSt (.ldB x) 3 s (effect (.ldB x) s) b⟩
  | storeRegs x => exact ⟨b, checkedAccess_setSt (.storeRegs x) (x.toNat + 1) s (effect (.storeRegs x) s) b⟩
  | loadRegs x => exact ⟨b, checkedAccess_setSt (.loadRegs x) (x.toNat + 1) s (effect (.loadRegs x) s) b⟩
  | ldF x => exact ⟨b, checkedSelector_setSt (.ldF x) x s b (ok := fun k => s.setI (glyphAddress k)) fun _ => rfl⟩
  | skp x => exact ⟨b, checkedSelector_setSt (.skp x) x s b fun _ => skipIf_setSt _ s b⟩
  | sknp x => exact ⟨b, checkedSelector_setSt (.sknp x) x s b fun _ => skipIf_setSt _ s b⟩
  | _ => exact ⟨b, rfl⟩

theorem engineCycle_setSt (s : State) (b : Byte) : ∃ c, engineCycle (s.setSt b) = withSt c (engineCycle s) := by
  unfold engineCycle
  by_cases hpc : 4094 < s.pc.toNat
  · exact ⟨b, by rw [if_pos hpc, State.setSt_pc, if_pos hpc]; rfl⟩
  · rw [if_neg hpc, State.setSt_pc, if_neg hpc, show fetchWord (s.setSt b) = fetchWord s from rfl]
    cases decodeWord (fetchWord s) with
    | none => exact ⟨b, rfl⟩
    | some i => exact exec_setSt i (afterFetch s) b

theorem engineTurn_setSt (s : State) (b : Byte) : ∃ c, engineTurn (s.setSt b) = withSt c (engineTurn s) := by
  unfold engineTurn
  rw [State.setSt_mode]
  cases s.mode with
  | running => exact engineCycle_setSt s b
  | _ => exact ⟨b, rfl⟩

theorem keyDown_setSt (k : Nibble) (s : State) (b : Byte) : keyDown k (s.setSt b) = (keyDown k s).setSt b := by
  unfold keyDown endWait
  cases hm : s.mode <;> simp [hm] <;> rfl

theorem keyUp_setSt (k : Nibble) (s : State) (b : Byte) : keyUp k (s.setSt b) = withSt b (keyUp k s) := by
  unfold keyUp
  rw [apply_ite (withSt b)]
  rfl

theorem loadImage_setSt (image : List Byte) (s : State) (b : Byte) :
    loadImage image (s.setSt b) = withSt b (loadImage image s) := by
  unfold loadImage
  rw [apply_ite (withSt b), apply_ite (withSt b)]
  rfl

theorem takeInput_setSt (e : Input) (s : State) (b : Byte) :
    ∃ c, takeInput e (s.setSt b) = withSt c (takeInput e s) := by
  by_cases hm : Halted s
  · cases e with
    | reset => exact ⟨0, rfl⟩
    | snapshot => exact ⟨b, rfl⟩
    | _ =>
      rw [takeInput_halted hm (by simp) (by simp), takeInput_halted (s := s.setSt b) hm (by simp) (by simp)]
      exact ⟨b, rfl⟩
  · cases e with
    | reset => exact ⟨0, rfl⟩
    | snapshot => exact ⟨b, rfl⟩
    | cycle =>
      rw [takeInput_cycle hm, takeInput_cycle (s := s.setSt b) hm]
      exact engineTurn_setSt s b
    | tick =>
      rw [takeInput_tick hm, takeInput_tick (s := s.setSt b) hm]
      exact ⟨countdown b, rfl⟩
    | keyDown k =>
      rw [takeInput_keyDown hm, takeInput_keyDown (s := s.setSt b) hm, keyDown_setSt]
      exact ⟨b, rfl⟩
    | keyUp k =>
      rw [takeInput_keyUp hm, takeInput_keyUp (s := s.setSt b) hm]
      exact ⟨b, keyUp_setSt k s b⟩
    | load image =>
      rw [takeInput_load hm, takeInput_load (s := s.setSt b) hm]
      exact ⟨b, loadImage_setSt image s b⟩

theorem step_setSt (s : State) (b : Byte) : ∃ c, step (s.setSt b) = withSt c (step s) := by
  cases hs : s.env.schedule with
  | nil =>
    rw [step_idle hs, step_idle (s := s.setSt b) hs]
    exact engineTurn_setSt s b
  | cons e rest =>
    rw [step_input hs, step_input (s := s.setSt b) hs]
    exact takeInput_setSt e (s.setSchedule rest) b

/-- Settles O59: the step commutes with replacing `ST`, case by case (`step_setSt`). -/
theorem soundTimerIsInvisible : Obligations.SoundTimerIsInvisible := by
  intro s t b h
  obtain ⟨c, hc⟩ := step_setSt s b
  exact ⟨c, by rw [hc, h]; rfl⟩

end Sys2Proof.Machine
end

section
/-! PROOFS. The obligations about single instructions of the state family: the engine cycle, call and return, memory,
glyph addresses, the draw, the wait, and what every instruction leaves unchanged. -/

namespace Sys2Proof.Machine

/-! ### The engine cycle -/

/-- A fetch inside memory of a word that decodes executes its instruction (R64). -/
theorem engineCycle_decoded {s : State} {i : Instr} (hpc : s.pc.toNat ≤ 4094) (hi : decodeWord (fetchWord s) = some i) :
    engineCycle s = exec i (afterFetch s) := by
  rw [engineCycle, if_neg (by omega), hi]

/-- A fetch with `pc` above 4094 is fatal (R64). -/
theorem engineCycle_beyond {s : State} (hpc : 4094 < s.pc.toNat) :
    engineCycle s = enterFatal .fetchOutOfBounds none (some s.pc) (some s.pc.toNat) s := by
  rw [engineCycle, if_pos hpc]

/-- Settles O5. -/
theorem stepRunsTheDecodedInstruction : Obligations.StepRunsTheDecodedInstruction := by
  intro s i hm hpc hi
  refine ⟨toNat_fetchWord s, fun hs => ?_, fun rest hs => ?_, rfl, rfl, afterFetch_keeps s⟩
  · rw [step_cycle ⟨hm, .inl ⟨hs, rfl⟩⟩, engineCycle_decoded hpc hi]
  · rw [step_cycle ⟨hm, .inr ⟨rest, hs, rfl⟩⟩]
    exact engineCycle_decoded (s := s.setSchedule rest) hpc hi

/-- Settles O6. -/
theorem fetchBeyondMemoryHalts : Obligations.FetchBeyondMemoryHalts := by
  intro s u hu hpc
  rw [← cycleNext_pc hu] at hpc ⊢
  obtain ⟨t, ht, hhalt⟩ := enterFatal_haltsWith .fetchOutOfBounds none (some u.pc) (some u.pc.toNat) u
  exact ⟨t, (step_cycle hu).trans ((engineCycle_beyond hpc).trans ht), hhalt, rfl⟩

/-! ### Call and return -/

/-- Settles O10. -/
theorem callPushesAndJumps : Obligations.CallPushesAndJumps := by
  intro nnn s
  constructor
  · intro hroom
    refine ⟨_, callWithin_room hroom, rfl, rfl, ?_, toNat_zextAddr nnn, ?_⟩
    · simp [State.stackEntry, State.sp]
    · exact effect_keepsAllBut (.call nnn) s
  · intro hfull
    obtain ⟨t, ht, hhalt⟩ := raise_haltsWith .stackOverflow (.call nnn) none s
    exact ⟨t, (callWithin_full hfull).trans ht, hhalt⟩

/-- Settles O11. -/
theorem returnPopsIntoPc : Obligations.ReturnPopsIntoPc := by
  intro s
  constructor
  · intro a rest hs
    refine ⟨_, popInto_cons hs, rfl, ?_, ?_, rfl, ?_⟩
    · simp [State.sp, hs]
    · simp [State.stackEntry, hs]
    · simp [keepsAllBut_iff]
  · intro hsp
    obtain ⟨t, ht, hhalt⟩ := raise_haltsWith .stackUnderflow .ret none s
    exact ⟨t, (popInto_nil (List.length_eq_zero_iff.1 hsp)).trans ht, hhalt⟩

/-! ### Memory -/

/-- An address that the list does not hold reads as unwritten. -/
theorem readMem_of_not_listed {m : Memory} {a : Nat} (h : ∀ c ∈ m, c.1 ≠ a) : readMem m a = unlistedByte a := by
  induction m with
  | nil => rfl
  | cons c rest ih =>
    rw [readMem, if_neg (h c (by simp)).symm]
    exact ih fun d hd => h d (by simp [hd])

/-- With rising addresses, a listed address reads as its entry. -/
theorem readMem_of_mem {m : Memory} (hp : m.Pairwise fun c d => c.1 < d.1) {c : Host.Cell} (hc : c ∈ m) :
    readMem m c.1 = c.2 := by
  induction m with
  | nil => cases hc
  | cons d rest ih =>
    obtain ⟨hd, hrest⟩ := List.pairwise_cons.1 hp
    obtain rfl | hc := List.mem_cons.1 hc
    · exact if_pos rfl
    · rw [readMem, if_neg (hd c hc).ne']
      exact ih hrest hc

/-- The entries of a memory in canonical form are the bytes that read unlike an unwritten address. -/
theorem mem_iff_readMem {m : Memory} (h : m.wf) (c : Host.Cell) :
    c ∈ m ↔ readMem m c.1 = c.2 ∧ c.2 ≠ unlistedByte c.1 := by
  constructor
  · exact fun hc => ⟨readMem_of_mem h.1 hc, (h.2 c hc).2⟩
  · rintro ⟨hread, hne⟩
    have hlisted : ∃ d ∈ m, d.1 = c.1 := by
      by_contra hno
      exact hne (hread.symm.trans (readMem_of_not_listed fun d hd he => hno ⟨d, hd, he⟩))
    obtain ⟨d, hd, he⟩ := hlisted
    have hdc : d = c := Prod.ext he (by rw [← readMem_of_mem h.1 hd, he, hread])
    exact hdc ▸ hd

/-- Memories in canonical form that read alike are the same list: both are sorted and hold the same entries. -/
theorem memory_ext {m k : Memory} (hm : m.wf) (hk : k.wf) (h : ∀ a, readMem m a = readMem k a) : m = k := by
  have : Std.Irrefl fun c d : Host.Cell => c.1 < d.1 := ⟨fun _ => Nat.lt_irrefl _⟩
  have : Std.Antisymm fun c d : Host.Cell => c.1 < d.1 := ⟨fun _ _ hcd hdc => absurd hcd hdc.asymm⟩
  exact hm.1.eq_of_mem_iff hk.1 fun c => by rw [mem_iff_readMem hm, mem_iff_readMem hk, h]

/-- Settles O31. -/
theorem memoryReadsBackWhatWasWritten : Obligations.MemoryReadsBackWhatWasWritten :=
  ⟨readMem_writeMem, fun _ _ => memory_ext⟩

/-! ### Glyphs, the draw, and the wait -/

theorem toNat_glyphAddress (d : Nibble) : (glyphAddress d).toNat = 0x050 + 5 * d.toNat := by
  have := d.isLt
  simp [glyphAddress, Config.glyphBase, Config.glyphBytes]; omega

/-- Settles O28. -/
theorem glyphAddressOfAHexDigit : Obligations.GlyphAddressOfAHexDigit := by
  intro x s h
  refine ⟨effect (.ldF x) s, checkedSelector_inside (ok := fun d => s.setI (glyphAddress d)) h, ?_,
    effect_keepsAllBut (.ldF x) s⟩
  rw [effect, State.setI_i, toNat_glyphAddress, BitVec.toNat_setWidth, Nat.mod_eq_of_lt (by omega)]

/-- Settles O33: `drawSprite_drawnSoFar` says what the pixel loop has toggled and whether it met a lit cell. -/
theorem drawTogglesExactlyTheSpriteCells : Obligations.DrawTogglesExactlyTheSpriteCells := by
  intro x y n s hin
  have hinside : ¬ (0 < n.toNat ∧ 4095 < s.base + n.toNat - 1) := by
    obtain rfl | hin := hin
    · simp
    · omega
  obtain ⟨hcells, hlit⟩ := drawSprite_drawnSoFar s.mem s.base (startColumn x s) (startRow y s) n.toNat s.display
  refine ⟨effect (.drw x y n) s, checkedAccess_inside hinside, hcells, fun h => ?_, fun h => ?_,
    effect_regsKeptBut (.drw x y n) s, effect_keepsAllBut (.drw x y n) s⟩
  · rw [effect, getV_setFlag_F, hlit.2 h]; rfl
  · rw [effect, getV_setFlag_F, Bool.eq_false_iff.2 fun ht => h (hlit.1 ht)]; rfl

/-- Settles O39. -/
theorem waitSuspendsTheEngine : Obligations.WaitSuspendsTheEngine :=
  fun x s => ⟨_, rfl, rfl, rfl, effect_keepsAllBut (.waitKey x) s⟩

/-! ### Every instruction -/

/-- Settles O52, by the two outcomes of an instruction (`exec_cases`). -/
theorem everyInstructionKeepsItsFrame : Obligations.EveryInstructionKeepsItsFrame := by
  intro i s
  obtain ⟨h, -⟩ | ⟨kind, d, -, h⟩ := exec_cases i s
  · exact ⟨_, h, .inr ⟨effect_keepsAllBut i s, effect_regsKeptBut i s, effect_memoryKeptOutside i s⟩⟩
  · obtain ⟨t, ht, hmode, hkeep⟩ := raise_haltsWith kind i d s
    exact ⟨t, h.trans ht, .inl ⟨⟨_, hmode⟩, hkeep⟩⟩

/-- Settles O53: a flag writer's effect ends in `setFlag`, and `VF` is not writable for the others. -/
theorem onlySevenInstructionsWriteTheFlag : Obligations.OnlySevenInstructionsWriteTheFlag := by
  intro i s t h
  obtain ⟨rfl, -⟩ | ⟨kind, d, -, rfl⟩ := exec_next_cases h
  · refine ⟨fun hw => .inr (effect_flag hw s), fun hw hnamed => effect_regsKeptBut i s 0xF ?_⟩
    simpa [writableRegs, hw] using hnamed
  · exact ⟨fun _ => .inl ⟨⟨_, rfl⟩, by simp [keepsAllBut_iff]⟩, fun _ _ => rfl⟩

end Sys2Proof.Machine
end

section
/-! PROOFS. The obligations about events and whole steps of the state family: reset, the pending wait, the halted machine,
fatal cycles, and what a step can change at all. -/

namespace Sys2Proof.Machine

/-! ### Reset -/

/-- Byte `5 d + r` of `GLYPH_ROM` is where glyph `d` has its row `r` (R15). -/
theorem unlistedByte_glyph {d r : Nat} (h : 5 * d + r < 80) : unlistedByte (0x050 + 5 * d + r) = glyphRom[5 * d + r] := by
  rw [unlistedByte, dif_pos (by simp only [Config.glyphBase]; omega)]
  congr 1
  simp only [Config.glyphBase]; omega

theorem unlistedByte_outside {a : Nat} (h : a < 0x050 ∨ 0x0A0 ≤ a) : unlistedByte a = 0 := by
  rw [unlistedByte, dif_neg (by simp only [Config.glyphBase]; omega)]

/-- Settles O48. -/
theorem resetStateIsAsSpecified : Obligations.ResetStateIsAsSpecified := by
  refine ⟨rfl, fun x => ?_, rfl, fun d _ r _ h => unlistedByte_glyph h, fun a h => unlistedByte_outside h, rfl, rfl, rfl,
    fun row _ col _ => cellAt_blankDisplay row col, fun k => ?_, rfl, rfl, rfl⟩
  · simp [State.reset, State.getV]
  · simp [State.reset, State.getKey]

/-! ### The pending wait and the halted machine -/

/-- A waiting machine is not halted. -/
theorem not_halted_of_awaiting {s : State} {x : Nibble} (hm : s.mode = .awaitingKey x) : ¬ Halted s := by
  rintro ⟨r, hr⟩
  cases hm.symm.trans hr

/-- Settles O40: a press is `keyDown_awaiting`; every other input leaves the wait as it is. -/
theorem onlyAPressEndsTheWait : Obligations.OnlyAPressEndsTheWait := by
  intro s x hm
  have hnh := not_halted_of_awaiting hm
  refine ⟨fun hs => ?_, fun k rest hs => ?_, fun rest hs => ?_, fun e rest hs he => ?_⟩
  · rw [step_idle hs, engineTurn, hm]
  · refine ⟨_, (step_input hs).trans (takeInput_keyDown hnh), ?_⟩
    rw [keyDown_awaiting (s := s.setSchedule rest) k hm]
    refine ⟨rfl, ?_, fun y hy => ?_, ?_, fun j hj => ?_, rfl, rfl, by simp [keepsAllBut_iff]⟩
    · simp [zextNibble]; omega
    · exact State.getV_setV_other _ (by simpa using hy) _
    · exact State.getKey_setKey_same _ k true
    · exact State.getKey_setKey_other _ hj true
  · refine ⟨s.setSchedule rest, ?_, hm, rfl, by simp [keepsAllBut_iff]⟩
    rw [step_input hs, takeInput_cycle (s := s.setSchedule rest) hnh, engineTurn, State.setSchedule_mode, hm]
  · obtain he | ⟨⟨k, rfl⟩, hcount⟩ := he
    · obtain rfl | he := List.mem_cons.1 he
      · exact ⟨_, (step_input hs).trans (takeInput_tick (s := s.setSchedule rest) hnh), hm, rfl,
          by simp [keepsAllBut_iff, tick]⟩
      · obtain rfl := List.mem_singleton.1 he
        exact ⟨snapshot (s.setSchedule rest), step_input hs, hm, rfl, by simp [keepsAllBut_iff, snapshot]⟩
    · obtain ⟨-, hk⟩ | ⟨h0, -⟩ := keyUp_cases k (s.setSchedule rest)
      · exact ⟨_, (step_input hs).trans ((takeInput_keyUp (s := s.setSchedule rest) hnh).trans hk), hm, rfl,
          by simp [keepsAllBut_iff]⟩
      · exact absurd h0 hcount.ne'

/-- Settles O49. -/
theorem haltedMachineStandsStill : Obligations.HaltedMachineStandsStill := by
  intro s r hm
  refine ⟨fun hs => ?_, fun e rest hs hr => ?_⟩
  · rw [step_idle hs, engineTurn, hm]
  · by_cases he : e = .snapshot
    · subst he
      exact ⟨_, step_input hs, by simp [State.faultRecord, snapshot, hm], by simp [keepsAllBut_iff, snapshot]⟩
    · refine ⟨_, (step_input hs).trans (takeInput_halted ⟨r, hm⟩ hr he), ?_, by simp [keepsAllBut_iff]⟩
      simp [State.faultRecord, hm]

/-! ### Whole steps -/

/-- Settles O54: of the four cases of a cycle only a failed fetch and a raised condition end halted. -/
theorem fatalCyclesArePrecise : Obligations.FatalCyclesArePrecise := by
  intro s u t hu h hhalt
  have hrun : ¬ Halted u := fun hh => hh.not_running ((cycleNext_keeps hu .mode (by simp)).trans hu.1)
  rw [← cycleNext_pc hu, ← cycleNext_fetchWord hu]
  cases cycleTo_of_step hu h with
  | fetchFails hpc => exact ⟨by simp [keepsAllBut_iff], _, rfl, .inl ⟨hpc, rfl, rfl⟩⟩
  | raises i kind d hpc hi hkind =>
    exact ⟨by simp [keepsAllBut_iff], _, rfl, .inr ⟨hpc, hkind.1, hkind.2, rfl, rfl, rfl⟩⟩
  | executes i => exact absurd hhalt (effect_not_halted hrun)
  | reports => exact absurd hhalt hrun

/-- Settles O55, from the list of mode changes of a step (`StepTo.mode`). -/
theorem modeChangesAreTheStatedOnes : Obligations.ModeChangesAreTheStatedOnes := by
  intro s t h
  obtain hsame | ⟨rest, hreset, hrun⟩ | ⟨hnot, r, hr⟩ | ⟨k, z, rest, hk, hz, hrun⟩ | ⟨hrun, z, hi, hz⟩ :=
    (stepTo_of_step h).mode
  · rw [hsame]
    exact ⟨fun _ hs ht => Mode.noConfusion (hs.symm.trans ht), fun _ _ hs ht => Mode.awaitingKey.inj (hs.symm.trans ht),
      fun _ hs ht => Mode.noConfusion (hs.symm.trans ht), fun _ hne => absurd rfl hne⟩
  · rw [hrun]
    exact ⟨fun _ _ ht => Mode.noConfusion ht, fun _ _ _ ht => Mode.noConfusion ht, fun _ _ _ => ⟨rest, .inl hreset⟩,
      fun _ _ => ⟨rest, hreset⟩⟩
  · rw [hr]
    exact ⟨fun _ _ ht => Mode.noConfusion ht, fun _ _ _ ht => Mode.noConfusion ht, fun _ _ ht => Mode.noConfusion ht,
      fun hs => absurd hs hnot⟩
  · rw [hrun, hz]
    exact ⟨fun _ hs => Mode.noConfusion hs, fun _ _ _ ht => Mode.noConfusion ht, fun _ _ _ => ⟨rest, .inr ⟨k, hk⟩⟩,
      fun hs => absurd hs (not_halted_of_awaiting hz)⟩
  · rw [hz, hrun]
    exact ⟨fun x _ ht => Mode.awaitingKey.inj ht ▸ hi, fun _ _ hs => Mode.noConfusion hs,
      fun _ hs => Mode.noConfusion hs, fun hs => absurd hrun hs.not_running⟩

/-- Settles O56: only a cycle, a load and a reset reach memory, and a cycle only by a storing instruction. -/
theorem onlyStoresLoadsAndResetChangeMemory : Obligations.OnlyStoresLoadsAndResetChangeMemory := by
  intro s t a h hne
  cases stepTo_of_step h with
  | cycle hu ht =>
    obtain hkeep | hstore := ht.memory
    · exact absurd ((hkeep a).trans (cycleNext_keeps hu .memory (by simp) a)) hne
    · exact .inl ⟨hu.1, cycleNext_fetchWord hu ▸ hstore⟩
  | resets hs => exact .inr ⟨_, .inl hs⟩
  | loads hs hopen => exact .inr ⟨_, .inr ⟨hopen, _, hs⟩⟩
  | _ => exact absurd rfl hne

/-- Settles O57: a cycle keeps the keys (`CycleTo.keys`), and of the other steps only those named touch them. -/
theorem onlyKeyEventsChangeTheKeys : Obligations.OnlyKeyEventsChangeTheKeys := by
  intro s t h hne
  cases stepTo_of_step h with
  | cycle hu ht =>
    obtain ⟨hkey, hcount⟩ := cycleNext_keeps hu .keys (by simp)
    exact absurd ⟨ht.keys.1.trans hkey, ht.keys.2.trans hcount⟩ (not_and_or.2 hne)
  | resets hs => exact ⟨_, .inl hs⟩
  | presses hs | pressEndsWait hs => exact ⟨_, .inr ⟨_, .inl hs⟩⟩
  | releases hs | releaseHalts hs => exact ⟨_, .inr ⟨_, .inr hs⟩⟩
  | _ => exact absurd ⟨rfl, rfl⟩ (not_and_or.2 hne)

end Sys2Proof.Machine
end

section
/-! PROOFS. Decoding what the encoder writes (R42, R60, R62, R65). -/

namespace Sys2Proof

/-- Every instruction is well formed and lies in its row: the lemmas of `Laws.InItsRow` under one quantifier. -/
theorem inItsRow : ∀ i : Instr, Laws.InItsRow.Statement i
  | .cls => Laws.InItsRow.cls
  | .ret => Laws.InItsRow.ret
  | .jp nnn => Laws.InItsRow.jp nnn
  | .call nnn => Laws.InItsRow.call nnn
  | .seImm x nn => Laws.InItsRow.seImm x nn
  | .sneImm x nn => Laws.InItsRow.sneImm x nn
  | .seReg x y => Laws.InItsRow.seReg x y
  | .ldImm x nn => Laws.InItsRow.ldImm x nn
  | .addImm x nn => Laws.InItsRow.addImm x nn
  | .ldReg x y => Laws.InItsRow.ldReg x y
  | .orReg x y => Laws.InItsRow.orReg x y
  | .andReg x y => Laws.InItsRow.andReg x y
  | .xorReg x y => Laws.InItsRow.xorReg x y
  | .addReg x y => Laws.InItsRow.addReg x y
  | .sub x y => Laws.InItsRow.sub x y
  | .shr x y => Laws.InItsRow.shr x y
  | .subn x y => Laws.InItsRow.subn x y
  | .shl x y => Laws.InItsRow.shl x y
  | .sneReg x y => Laws.InItsRow.sneReg x y
  | .ldI nnn => Laws.InItsRow.ldI nnn
  | .jpV0 nnn => Laws.InItsRow.jpV0 nnn
  | .rnd x nn => Laws.InItsRow.rnd x nn
  | .drw x y n => Laws.InItsRow.drw x y n
  | .skp x => Laws.InItsRow.skp x
  | .sknp x => Laws.InItsRow.sknp x
  | .readDt x => Laws.InItsRow.readDt x
  | .waitKey x => Laws.InItsRow.waitKey x
  | .setDt x => Laws.InItsRow.setDt x
  | .setSt x => Laws.InItsRow.setSt x
  | .addI x => Laws.InItsRow.addI x
  | .ldF x => Laws.InItsRow.ldF x
  | .ldB x => Laws.InItsRow.ldB x
  | .storeRegs x => Laws.InItsRow.storeRegs x
  | .loadRegs x => Laws.InItsRow.loadRegs x

/-- The decoder reads every operand back from the word of an instruction, format by format (R62). -/
theorem decodeWord_encode (i : Instr) : decodeWord (encode i) = some i := by
  cases i with
  | cls | ret => rfl
  | jp | call | ldI | jpV0 => simp only [encode, decodeWord, opOf_nnnWord, nnnOf_nnnWord]
  | seImm | sneImm | ldImm | addImm | rnd => simp only [encode, decodeWord, opOf_xnnWord, xOf_xnnWord, nnOf_xnnWord]
  | seReg | sneReg | drw =>
    simp only [encode, decodeWord, opOf_xynWord, xOf_xynWord, yOf_xynWord, nOf_xynWord, if_true]
  | ldReg | orReg | andReg | xorReg | addReg | sub | shr | subn | shl =>
    simp only [encode, decodeWord, opOf_xynWord, xOf_xynWord, yOf_xynWord, nOf_xynWord, decodeAlu]
  | skp | sknp => simp only [encode, decodeWord, opOf_xnnWord, xOf_xnnWord, nnOf_xnnWord, decodeKey]
  | readDt | waitKey | setDt | setSt | addI | ldF | ldB | storeRegs | loadRegs =>
    -- 0xF is the decoder's last arm, without a pattern of its own: `simp` does not take it, evaluation does.
    simp only [encode, decodeWord, opOf_xnnWord, xOf_xnnWord, nnOf_xnnWord]
    rfl

/-- Two bytes whose word decodes give that instruction and leave the bytes that follow (R42, R60). -/
theorem decode_wordBytes_some {w : Word} {i : Instr} (h : decodeWord w = some i) (rest : List Byte) :
    decode (wordBytes w ++ rest) = .ok (i, rest) := by
  rw [decode_wordBytes, h]

/-- Settles O1: `decodeWord_encode` for the word, from which the two bytes follow. -/
theorem decodeOfEncodeIsTheInstruction : Obligations.DecodeOfEncodeIsTheInstruction := by
  intro i rest
  obtain ⟨hwf, -⟩ := inItsRow i
  exact ⟨hwf, decodeWord_encode i, decode_wordBytes_some (decodeWord_encode i) rest⟩

end Sys2Proof
end

section
/-! PROOFS. The obligations about block stores, block loads and the BCD store, and about accesses above memory (R41,
R51, R54, R122 to R124). -/

namespace Sys2Proof.Machine

/-! ### What a store leaves in memory -/

/-- Stored byte `j` is read back at `I + j` (R41). -/
theorem readByte_effect_stored (i : Instr) (s : State) {j : Nat} (h : j < (storedBytes i s).length) :
    (effect i s).readByte (s.base + j) = (storedBytes i s)[j] := by
  rw [State.readByte, effect_mem, readMem_writeBytes, dif_pos (by omega)]
  simp only [Nat.add_sub_cancel_left]

/-- After a block store the byte at `I + j` is `V[j]`, up to `V[x]` (R122). -/
theorem readByte_effect_storeRegs {x : Nibble} (s : State) {j : Nat} (h : j ≤ x.toNat) (hj : j < 16) :
    (effect (.storeRegs x) s).readByte (s.base + j) = s.v[j] := by
  have hlt : j < (registerBlock x s).length := by rw [registerBlock_length]; omega
  exact (readByte_effect_stored (.storeRegs x) s hlt).trans (registerBlock_getElem x s j hlt hj)

/-- Inside memory a block store has its effect (R122). -/
theorem exec_storeRegs_inside {x : Nibble} {s : State} (h : s.base + x.toNat ≤ 4095) :
    exec (.storeRegs x) s = .next (effect (.storeRegs x) s) :=
  checkedAccess_inside (by omega)

/-- Settles O8. -/
theorem storedBytesAreFetchedNext : Obligations.StoredBytesAreFetchedNext := by
  intro s x j hj hin hpc hx
  have hkept : (effect (.storeRegs x) s).pc = s.pc := effect_keepsAllBut (.storeRegs x) s .pc (by simp [writableParts])
  refine ⟨_, exec_storeRegs_inside hin, hkept, ?_⟩
  rw [fetchWord, hkept, hpc, readByte_effect_storeRegs s (by omega) (by omega), Nat.add_assoc,
    readByte_effect_storeRegs s hx (by omega)]

/-- Settles O25. -/
theorem storeRegistersWritesTheBlock : Obligations.StoreRegistersWritesTheBlock := by
  intro x s hin
  exact ⟨_, exec_storeRegs_inside hin, fun j hj => readByte_effect_storeRegs s hj j.isLt,
    effect_memoryKeptOutside (.storeRegs x) s, advanceIndex_i hin, effect_keepsAllBut (.storeRegs x) s⟩

/-- Settles O26. -/
theorem loadRegistersReadsTheBlock : Obligations.LoadRegistersReadsTheBlock := by
  intro x s hin
  refine ⟨effect (.loadRegs x) s, checkedAccess_inside (by omega), fun j => ?_, advanceIndex_i hin,
    effect_keepsAllBut (.loadRegs x) s⟩
  rw [effect, getV_advanceIndex, getV_loadBlock]

/-- Settles O27: the three stored bytes are `bcdDigits`, whose divisions are those of the numbers. -/
theorem bcdStoresThreeDigits : Obligations.BcdStoresThreeDigits := by
  intro x s hin
  have hdigit : ∀ j (hj : j < 3), (effect (.ldB x) s).readByte (s.base + j) = (bcdDigits (s.getV x))[j] :=
    fun j hj => readByte_effect_stored (.ldB x) s hj
  refine ⟨effect (.ldB x) s, checkedAccess_inside (by omega), ?_, ?_, ?_, effect_memoryKeptOutside (.ldB x) s,
    effect_keepsAllBut (.ldB x) s⟩
  · rw [← Nat.add_zero s.base, hdigit 0 (by decide)]
    exact BitVec.toNat_udiv
  · rw [hdigit 1 (by decide)]
    exact BitVec.toNat_umod.trans (congrArg (· % 10) BitVec.toNat_udiv)
  · rw [hdigit 2 (by decide)]
    exact BitVec.toNat_umod

/-! ### Accesses above memory -/

/-- An access of at least one byte whose highest address is above 4095 halts with that address (R41, R54, R171). -/
theorem checkedAccess_haltsWith {i : Instr} {n : Nat} {s ok : State} (hn : 0 < n) (h : 4095 < s.base + (n - 1)) :
    ∃ t, checkedAccess i n s ok = .next t ∧
      HaltsWith s t .memoryOutOfBounds (some (encode i)) (some (s.pc - 2)) (some (s.base + (n - 1))) := by
  rw [← Nat.add_sub_assoc hn] at h ⊢
  rw [checkedAccess_outside ⟨hn, h⟩]
  exact raise_haltsWith .memoryOutOfBounds i _ s

/-- Settles O29: each of the four is a `checkedAccess`, of `x + 1`, 3 or `n` bytes. -/
theorem accessBeyondMemoryHalts : Obligations.AccessBeyondMemoryHalts := by
  intro x y n s
  refine ⟨fun h => ⟨?_, ?_⟩, fun h => ?_, fun hn h => ?_⟩
  · exact checkedAccess_haltsWith (i := .storeRegs x) (Nat.succ_pos x.toNat) h
  · exact checkedAccess_haltsWith (i := .loadRegs x) (Nat.succ_pos x.toNat) h
  · exact checkedAccess_haltsWith (i := .ldB x) (n := 3) (by decide) h
  · have hpos : 0 < n.toNat := Nat.pos_of_ne_zero fun h0 => hn (BitVec.eq_of_toNat_eq h0)
    exact checkedAccess_haltsWith (i := .drw x y n) hpos h

end Sys2Proof.Machine
end

section
/-! PROOFS. The opcode map and the decoder agree (R65, R66, R69): a row that selects a word fixes the word's operation
field and discriminant, and with them the decoder's arm; then what a cycle does with a word of no row. -/

namespace Sys2Proof

/-! ### What a row that selects a word says of its fields, by the row's mask -/

theorem opOf_of_selects_F000 {p w : Word} (h : (OpcodeRow.mk 0xF000 p).selects w = true) : opOf w = opOf p := by
  have hp : w &&& 0xF000 = p := eq_of_beq h
  rw [← hp, and_F000, opOf_nnnWord]

theorem fields_of_selects_F00F {p w : Word} (h : (OpcodeRow.mk 0xF00F p).selects w = true) :
    opOf w = opOf p ∧ nOf w = nOf p := by
  have hp : w &&& 0xF00F = p := eq_of_beq h
  rw [← hp, and_F00F, opOf_xynWord, nOf_xynWord]
  exact ⟨rfl, rfl⟩

theorem fields_of_selects_F0FF {p w : Word} (h : (OpcodeRow.mk 0xF0FF p).selects w = true) :
    opOf w = opOf p ∧ nnOf w = nnOf p := by
  have hp : w &&& 0xF0FF = p := eq_of_beq h
  rw [← hp, and_F0FF, opOf_xnnWord, nnOf_xnnWord]
  exact ⟨rfl, rfl⟩

theorem eq_of_selects_FFFF {p w : Word} (h : (OpcodeRow.mk 0xFFFF p).selects w = true) : w = p :=
  BitVec.and_allOnes.symm.trans (eq_of_beq h)

/-! ### The decoder and the rows -/

/-- A word that the row of an instruction selects decodes to an instruction of the same row. -/
theorem decodeWord_of_selects {i : Instr} {w : Word} (h : (opcodeRow i).selects w = true) :
    ∃ j, decodeWord w = some j ∧ opcodeRow j = opcodeRow i := by
  cases i with
  | cls | ret =>
    obtain rfl := eq_of_selects_FFFF h
    exact ⟨_, rfl, rfl⟩
  | jp | call | seImm | sneImm | ldImm | addImm | ldI | jpV0 | rnd | drw =>
    rw [decodeWord, opOf_of_selects_F000 h]
    exact ⟨_, rfl, rfl⟩
  | seReg | sneReg | ldReg | orReg | andReg | xorReg | addReg | sub | shr | subn | shl =>
    obtain ⟨hop, hn⟩ := fields_of_selects_F00F h
    rw [decodeWord, hop, hn]
    exact ⟨_, rfl, rfl⟩
  | skp | sknp | readDt | waitKey | setDt | setSt | addI | ldF | ldB | storeRegs | loadRegs =>
    obtain ⟨hop, hnn⟩ := fields_of_selects_F0FF h
    rw [decodeWord, hop, hnn]
    exact ⟨_, rfl, rfl⟩

/-- A word that decodes lies in the row of its instruction. -/
theorem selects_of_decodeWord {w : Word} {i : Instr} (h : decodeWord w = some i) : (opcodeRow i).selects w = true := by
  obtain ⟨-, hrow⟩ := inItsRow i
  rwa [encode_of_decodeWord h] at hrow

/-- The list of rows holds the row of every instruction and no other. -/
theorem mem_opcodeRows {r : OpcodeRow} : r ∈ opcodeRows ↔ ∃ i, opcodeRow i = r := by
  constructor
  · intro h
    obtain ⟨i, -, hi⟩ := List.mem_map.1 h
    exact ⟨i, hi⟩
  · rintro ⟨i, rfl⟩
    cases i <;> simp [opcodeRows, opcodeRow]

theorem opcodeRows_nodup : opcodeRows.Nodup := by decide

/-- A row of the map selects a word only if the word decodes to an instruction of that row. -/
theorem selects_iff {r : OpcodeRow} (hr : r ∈ opcodeRows) {w : Word} :
    r.selects w = true ↔ ∃ i, decodeWord w = some i ∧ opcodeRow i = r := by
  obtain ⟨i, rfl⟩ := mem_opcodeRows.1 hr
  constructor
  · exact decodeWord_of_selects
  · rintro ⟨j, hj, hrow⟩
    exact hrow ▸ selects_of_decodeWord hj

theorem isSome_decodeWord_iff (w : Word) : (decodeWord w).isSome = true ↔ ∃ r ∈ opcodeRows, r.selects w = true := by
  rw [Option.isSome_iff_exists]
  constructor
  · rintro ⟨i, hi⟩
    exact ⟨opcodeRow i, mem_opcodeRows.2 ⟨i, rfl⟩, selects_of_decodeWord hi⟩
  · rintro ⟨r, hr, hw⟩
    obtain ⟨i, hi, -⟩ := (selects_iff hr).1 hw
    exact ⟨i, hi⟩

/-- The row that selects a word is that of the instruction the word decodes to, hence the only one. -/
theorem opcodeRow_unique {r q : OpcodeRow} (hr : r ∈ opcodeRows) (hq : q ∈ opcodeRows) {w : Word}
    (hrw : r.selects w = true) (hqw : q.selects w = true) : r = q := by
  obtain ⟨i, hi, rfl⟩ := (selects_iff hr).1 hrw
  obtain ⟨j, hj, rfl⟩ := (selects_iff hq).1 hqw
  rw [Option.some.inj (hi.symm.trans hj)]

/-- Settles O2. -/
theorem encodeOfDecodeIsTheWord : Obligations.EncodeOfDecodeIsTheWord :=
  fun _ _ h => ⟨encode_of_decodeWord h, selects_of_decodeWord h⟩

/-- Settles O3: two rows that select one word are equal, and no row stands twice in the map. -/
theorem recognizedWordsAreTheOpcodeRows : Obligations.RecognizedWordsAreTheOpcodeRows :=
  ⟨rfl, isSome_decodeWord_iff, opcodeRows_nodup.pairwise_of_forall_ne fun _ hr _ hq hne _ ⟨hrw, hqw⟩ =>
    hne (opcodeRow_unique hr hq hrw hqw)⟩

end Sys2Proof

namespace Sys2Proof.Machine

/-! ### A word of no row -/

/-- A fetch inside memory of a word that does not decode is reported (R66, R175). -/
theorem engineCycle_unrecognized {s : State} (hpc : s.pc.toNat ≤ 4094) (hi : decodeWord (fetchWord s) = none) :
    engineCycle s = .next ((afterFetch s).emit (.unrecognized (fetchWord s) s.pc)) := by
  rw [engineCycle, if_neg (by omega), hi]

/-- The state an engine cycle is taken from has the outputs of the state before it. -/
theorem cycleNext_outputs {s u : State} (h : CycleNext s u) : u.env.outputs = s.env.outputs := by
  obtain ⟨-, ⟨-, rfl⟩ | ⟨rest, -, rfl⟩⟩ := h <;> rfl

/-- The report of a word changes `pc`, the loader's turn and the outputs only. -/
theorem afterFetch_emit_keeps (s : State) (o : Output) : KeepsAllBut [.pc, .loader, .env] s ((afterFetch s).emit o) := by
  simp [keepsAllBut_iff]

/-- Settles O7. -/
theorem unrecognizedWordIsReportedAndSkipped : Obligations.UnrecognizedWordIsReportedAndSkipped := by
  intro s u hu hpc hrows
  have hnone : decodeWord (fetchWord s) = none := by
    rw [← Option.not_isSome_iff_eq_none, isSome_decodeWord_iff]
    rintro ⟨r, hr, hw⟩
    exact Bool.false_ne_true ((hrows r hr).symm.trans hw)
  rw [← cycleNext_pc hu] at hpc ⊢
  rw [← cycleNext_fetchWord hu] at hnone ⊢
  rw [← cycleNext_outputs hu]
  exact ⟨_, (step_cycle hu).trans (engineCycle_unrecognized hpc hnone), rfl, rfl, rfl, afterFetch_emit_keeps u _⟩

end Sys2Proof.Machine
end

section
/-! PROOFS. The obligations about control flow (40_control_flow.md): jumps, a program at rest, the return after a call,
the skips, and the words the spec's examples write out. -/

namespace Sys2Proof

/-- Settles O4: fifteen closed words, on which the decoder is evaluated. -/
theorem specWordsDecodeAsWritten : Obligations.SpecWordsDecodeAsWritten := by
  unfold Obligations.SpecWordsDecodeAsWritten
  decide

/-- `toNat_xnnWord` with the place values in front, as the statements write a word of format `XNN`. -/
theorem toNat_xnnWord_mul_left (o x : Nibble) (nn : Byte) :
    (o ++ x ++ nn : Word).toNat = 4096 * o.toNat + 256 * x.toNat + nn.toNat := by
  rw [toNat_xnnWord]; omega

/-- `toNat_xynWord` with the place values in front, as the statements write a word of format `XYN`. -/
theorem toNat_xynWord_mul_left (o x y n : Nibble) :
    (o ++ x ++ y ++ n : Word).toNat = 4096 * o.toNat + 256 * x.toNat + 16 * y.toNat + n.toNat := by
  rw [toNat_xynWord]; omega

/-- A word with the operation field of a register skip and a low nibble other than 0 is of no row (R85, R86). -/
theorem decodeWord_skipReg_eq_none {o n : Nibble} (ho : o = 0x5 ∨ o = 0x9) (hn : n ≠ 0) (x y : Nibble) :
    decodeWord (o ++ x ++ y ++ n) = none := by
  obtain rfl | rfl := ho <;> simp only [decodeWord, opOf_xynWord, nOf_xynWord] <;> exact if_neg hn

end Sys2Proof

namespace Sys2Proof.Machine

/-! ### Jumps and coming to rest -/

/-- A cycle whose word is a jump to its own address changes nothing but the loader's turn (R80). -/
theorem engineCycle_selfJump {s : State} {nnn : Addr12} (hpc : s.pc.toNat ≤ 4094)
    (hi : decodeWord (fetchWord s) = some (.jp nnn)) (hself : zextAddr nnn = s.pc) :
    engineCycle s = .next s.closeLoader := by
  have hjump : exec (.jp nnn) (afterFetch s) = .next ((afterFetch s).setPc (zextAddr nnn)) := rfl
  rw [engineCycle_decoded hpc hi, hjump, hself]
  rfl

theorem AtRest.congr {s t : State} (h : AtRest s) (hmode : t.mode = s.mode) (hpc : t.pc = s.pc)
    (hword : fetchWord t = fetchWord s) : AtRest t := by
  unfold AtRest
  rw [hmode, hpc, hword]
  exact h

/-- At rest, the state a cycle is taken from is at rest too. -/
theorem AtRest.cycleNext {s u : State} (h : AtRest s) (hu : CycleNext s u) : AtRest u :=
  h.congr (cycleNext_keeps hu .mode (by simp)) (cycleNext_pc hu) (cycleNext_fetchWord hu)

/-- At rest, a cycle ends the loader's turn and does nothing else (R215). -/
theorem AtRest.step_eq {s u : State} (h : AtRest s) (hu : CycleNext s u) : step s = .next u.closeLoader := by
  obtain ⟨-, hpc, nnn, hi, hself⟩ := h.cycleNext hu
  exact (step_cycle hu).trans (engineCycle_selfJump hpc hi hself)

/-- Settles O60. -/
theorem programAtRestStaysAtRest : Obligations.ProgramAtRestStaysAtRest := by
  intro s u h hu
  exact ⟨u.closeLoader, h.step_eq hu, (h.cycleNext hu).congr rfl rfl rfl, by simp [keepsAllBut_iff]⟩

/-- Settles O9: after a jump to 0xFFF the fetch is beyond memory (O6), and a jump to itself is a program at rest. -/
theorem jumpGoesToItsTarget : Obligations.JumpGoesToItsTarget := by
  intro nnn s
  refine ⟨toNat_nnnWord 0x1 nnn, decodeWord_encode _, ?_, ?_⟩
  · refine ⟨s.setPc (zextAddr nnn), rfl, toNat_zextAddr nnn, effect_keepsAllBut (.jp nnn) s, ?_⟩
    rintro rfl u hu
    obtain ⟨r, hr, hhalt, -⟩ := fetchBeyondMemoryHalts _ u hu (by rw [State.setPc_pc]; decide)
    exact ⟨r, hr, hhalt⟩
  · intro u hu hpc hword hself
    have hi : decodeWord (fetchWord s) = some (.jp nnn) := hword ▸ decodeWord_encode _
    have htarget : zextAddr nnn = s.pc := BitVec.eq_of_toNat_eq ((toNat_zextAddr nnn).trans hself.symm)
    exact AtRest.step_eq ⟨hu.1, hpc, nnn, hi, htarget⟩ hu

/-- Settles O15: `nnn + V0` is below 2^16, so the 16-bit sum is that of the numbers. -/
theorem indexedJumpAddsV0 : Obligations.IndexedJumpAddsV0 := by
  intro nnn s
  refine ⟨s.setPc (zextAddr nnn + zextByte (s.getV 0)), rfl, ?_, effect_keepsAllBut (.jpV0 nnn) s⟩
  have := nnn.isLt
  have := (s.getV 0).isLt
  rw [State.setPc_pc, BitVec.toNat_add, toNat_zextAddr, toNat_zextByte]
  omega

/-! ### A return after a call -/

/-- Settles O12: the call has left its `pc` on top of the old stack. -/
theorem returnUndoesCall : Obligations.ReturnUndoesCall := by
  intro nnn s t u hroom hcall hu
  cases (callWithin_room hroom).symm.trans hcall
  exact ⟨_, popInto_cons (a := s.pc) (rest := s.stack) hu, rfl, rfl⟩

/-! ### Skips -/

/-- An instruction that skips when `p` holds (R88). -/
theorem exec_skips_when {i : Instr} {s : State} {c : Bool} {p : Prop} [Decidable p]
    (h : exec i s = .next (skipIf c s)) (hc : c = true ↔ p) :
    ∃ t, exec i s = .next t ∧ t.pc = (if p then s.pc + 2 else s.pc) ∧ KeepsAllBut [.pc] s t :=
  ⟨_, h, by simp only [skipIf_pc, hc], skipIf_keeps c s⟩

/-- An instruction that skips unless `p` holds (R88). -/
theorem exec_skips_unless {i : Instr} {s : State} {c : Bool} {p : Prop} [Decidable p]
    (h : exec i s = .next (skipIf c s)) (hc : c = true ↔ ¬ p) :
    ∃ t, exec i s = .next t ∧ t.pc = (if p then s.pc else s.pc + 2) ∧ KeepsAllBut [.pc] s t := by
  simpa only [ite_not] using exec_skips_when h hc

/-- Settles O13. -/
theorem skipOnImmediate : Obligations.SkipOnImmediate := by
  intro x nn s
  exact ⟨toNat_xnnWord_mul_left 0x3 x nn, decodeWord_encode _, toNat_xnnWord_mul_left 0x4 x nn, decodeWord_encode _,
    exec_skips_when rfl decide_eq_true_iff, exec_skips_unless rfl decide_eq_true_iff⟩

/-- Settles O14. -/
theorem skipOnRegisters : Obligations.SkipOnRegisters := by
  intro x y s
  refine ⟨toNat_xynWord_mul_left 0x5 x y 0, decodeWord_encode _, toNat_xynWord_mul_left 0x9 x y 0, decodeWord_encode _,
    fun n hn => ⟨?_, ?_⟩, exec_skips_when rfl decide_eq_true_iff, exec_skips_unless rfl decide_eq_true_iff⟩
  · exact decodeWord_skipReg_eq_none (.inl rfl) hn x y
  · exact decodeWord_skipReg_eq_none (.inr rfl) hn x y

/-- A selector register that holds the key number `k` selects key `k` (R150, R151). -/
theorem checkedSelector_key {i : Instr} {x k : Nibble} {s : State} {ok : Nibble → State}
    (h : (s.getV x).toNat = k.toNat) : checkedSelector i x s ok = .next (ok k) := by
  have hk : (s.getV x).setWidth 4 = k := by
    apply BitVec.eq_of_toNat_eq
    rw [BitVec.toNat_setWidth, h, Nat.mod_eq_of_lt k.isLt]
  rw [checkedSelector_inside (by omega), hk]

/-- Settles O36. -/
theorem keySkipsTestTheKeyState : Obligations.KeySkipsTestTheKeyState := by
  intro x k s h
  constructor
  · have hskip : exec (.skp x) s = .next (skipIf (s.getKey k) s) :=
      checkedSelector_key (ok := fun j => skipIf (s.getKey j) s) h
    exact exec_skips_when hskip Iff.rfl
  · have hskip : exec (.sknp x) s = .next (skipIf (!s.getKey k) s) :=
      checkedSelector_key (ok := fun j => skipIf (!s.getKey j) s) h
    exact exec_skips_unless hskip (by rw [Bool.not_eq_true', Bool.not_eq_true])

end Sys2Proof.Machine
end

section
/-! PROOFS. The obligations about the register ALU (41_register_alu.md) and `ADD I, Vx`: an instruction either writes one
register and no flag, or writes its result and then the flag (R100). -/

namespace Sys2Proof.Machine

/-! ### Instructions that write a result and then the flag -/

/-- A flag that tells whether `p` holds is the byte 1 exactly when it does (R11). -/
theorem flagByte_eq_ite {c : Bool} {p : Prop} [Decidable p] (hc : c = true ↔ p) :
    flagByte c = if p then 1 else 0 := by
  simp only [flagByte, hc]

/-- An instruction that writes `b` to `V[x]` and then a flag telling whether `p` holds: for `x = 0xF` the flag is what
stays (R100). -/
theorem exec_writes_result_then_flag {i : Instr} {s : State} {x : Nibble} {b : Byte} {c : Bool} {p : Prop} [Decidable p]
    {n : Nat} (h : exec i s = .next (s.setVFlag x b c)) (hc : c = true ↔ p) (hb : b.toNat = n) :
    ∃ t, exec i s = .next t ∧ t.getV 0xF = (if p then 1 else 0) ∧ (x ≠ 0xF → (t.getV x).toNat = n) ∧
      RegsKeptBut [x, 0xF] s t ∧ KeepsAllBut [.regs] s t := by
  refine ⟨s.setVFlag x b c, h, ?_, fun hx => ?_, setVFlag_regsKeptBut s x b c, by simp [keepsAllBut_iff]⟩
  · rw [getV_setVFlag_F, flagByte_eq_ite hc]
  · rw [getV_setVFlag_same hx, hb]

/-- Settles O20. -/
theorem addSetsCarry : Obligations.AddSetsCarry := fun _ _ _ =>
  exec_writes_result_then_flag rfl decide_eq_true_iff (BitVec.toNat_add ..)

/-- The difference modulo 256 with the place of the borrow in front, as the statement writes it. -/
theorem toNat_sub_byte (a b : Byte) : (a - b).toNat = (a.toNat + 256 - b.toNat) % 256 := by
  rw [BitVec.toNat_sub]; omega

/-- Settles O21. -/
theorem subtractSetsNotBorrow : Obligations.SubtractSetsNotBorrow := fun _ _ _ =>
  ⟨exec_writes_result_then_flag rfl decide_eq_true_iff (toNat_sub_byte ..),
    exec_writes_result_then_flag rfl decide_eq_true_iff (toNat_sub_byte ..)⟩

/-- Bit 0 tells whether a byte is odd (R109). -/
theorem shiftOutRight_iff (b : Byte) : shiftOutRight b = true ↔ b.toNat % 2 = 1 := by
  rw [shiftOutRight, BitVec.getLsbD, Nat.testBit_zero, decide_eq_true_iff]

/-- Bit 7 tells whether a byte is at least 128 (R111). -/
theorem shiftOutLeft_iff (b : Byte) : shiftOutLeft b = true ↔ 128 ≤ b.toNat := by
  rw [shiftOutLeft, ← BitVec.msb_eq_getLsbD_last, BitVec.msb_eq_decide, decide_eq_true_iff]

/-- Settles O22. -/
theorem shiftsDeliverTheBitShiftedOut : Obligations.ShiftsDeliverTheBitShiftedOut := fun _ _ _ =>
  ⟨exec_writes_result_then_flag rfl (shiftOutRight_iff _) (by rw [BitVec.toNat_ushiftRight, Nat.shiftRight_one]),
    exec_writes_result_then_flag rfl (shiftOutLeft_iff _) (by rw [BitVec.toNat_shiftLeft, Nat.shiftLeft_eq])⟩

/-- Settles O24: the flag is written to a register, so `I` keeps the 16-bit sum. -/
theorem addToIndexFlagsPastTwelveBits : Obligations.AddToIndexFlagsPastTwelveBits := by
  intro x s
  refine ⟨effect (.addI x) s, rfl, ?_, ?_, effect_regsKeptBut (.addI x) s, effect_keepsAllBut (.addI x) s⟩
  · rw [effect, setFlag_i, State.setI_i, BitVec.toNat_add, toNat_zextByte]
  · exact (getV_setFlag_F _ _).trans (flagByte_eq_ite decide_eq_true_iff)

/-! ### Instructions that write one register and no flag -/

/-- An instruction that writes `b` to `V[x]` and does nothing else. -/
theorem exec_writes_register {i : Instr} {s : State} {x : Nibble} {b : Byte} (h : exec i s = .next (s.setV x b)) :
    ∃ t, exec i s = .next t ∧ t.getV x = b ∧ RegsKeptBut [x] s t ∧ KeepsAllBut [.regs] s t :=
  ⟨s.setV x b, h, s.getV_setV_same x b, setV_regsKeptBut s x b, by simp [keepsAllBut_iff]⟩

/-- Settles O16. -/
theorem loadImmediateWritesOneRegister : Obligations.LoadImmediateWritesOneRegister := fun x nn _ =>
  ⟨toNat_xnnWord_mul_left 0x6 x nn, decodeWord_encode _, exec_writes_register rfl⟩

/-- Settles O17. -/
theorem addImmediateWrapsWithoutFlag : Obligations.AddImmediateWrapsWithoutFlag := by
  intro x nn s
  obtain ⟨t, ht, hx, hframe⟩ := exec_writes_register (i := .addImm x nn) (s := s) rfl
  exact ⟨toNat_xnnWord_mul_left 0x7 x nn, decodeWord_encode _, t, ht, by rw [hx, BitVec.toNat_add], hframe⟩

/-- Settles O18: `V[y]` reads as itself whether or not it is the register written. -/
theorem copyRegister : Obligations.CopyRegister := by
  intro x y s
  refine ⟨toNat_xynWord_mul_left 0x8 x y 0, decodeWord_encode _, s.setV x (s.getV y), rfl, s.getV_setV_same x _, ?_,
    setV_regsKeptBut s x _, effect_keepsAllBut (.ldReg x y) s, ?_⟩
  · rw [State.getV_setV, ite_self]
  · rintro rfl
    apply State.regs_ext
    intro z
    rw [State.getV_setV]
    split
    · next hz => rw [hz]
    · rfl

/-- An instruction that writes to `V[x]` a byte made bit by bit from `V[x]` and `V[y]` (R104, R105, R106). -/
theorem exec_writes_bitwise {i : Instr} {s : State} {x y : Nibble} {b : Byte} {f : Bool → Bool → Bool}
    (h : exec i s = .next (s.setV x b))
    (hb : ∀ k, b.getLsbD k = f ((s.getV x).getLsbD k) ((s.getV y).getLsbD k)) :
    ∃ t, exec i s = .next t ∧
      (∀ k < 8, (t.getV x).getLsbD k = f ((s.getV x).getLsbD k) ((s.getV y).getLsbD k)) ∧ RegsKeptBut [x] s t ∧
      KeepsAllBut [.regs] s t := by
  obtain ⟨t, ht, rfl, hframe⟩ := exec_writes_register h
  exact ⟨t, ht, fun k _ => hb k, hframe⟩

/-- Settles O19. -/
theorem logicIsBitwiseWithoutFlag : Obligations.LogicIsBitwiseWithoutFlag := fun _ _ _ =>
  ⟨exec_writes_bitwise rfl fun _ => BitVec.getLsbD_or, exec_writes_bitwise rfl fun _ => BitVec.getLsbD_and,
    exec_writes_bitwise rfl fun _ => BitVec.getLsbD_xor⟩

end Sys2Proof.Machine
end

section
/-! PROOFS. The obligations about the index register and selectors (42_index_memory.md): `LD I, nnn` and a glyph or key
selector above 15 (R120, R125, R150, R151). -/

namespace Sys2Proof.Machine

/-- Settles O23: the effect puts the zero-extended `nnn` into `I`, the one piece the instruction may write. -/
theorem loadIndexWritesIOnly : Obligations.LoadIndexWritesIOnly := by
  intro nnn s
  exact ⟨effect (.ldI nnn) s, rfl, toNat_zextAddr nnn, effect_keepsAllBut (.ldI nnn) s⟩

/-- An instruction that selects by `V[x]` halts when `V[x]` is above 15, with that value as detail (R170, R171). -/
theorem exec_haltsWith_of_checkedSelector {i : Instr} {x : Nibble} {s : State} (ok : Nibble → State)
    (hexec : exec i s = checkedSelector i x s ok) (h : 15 < (s.getV x).toNat) :
    ∃ t, exec i s = .next t ∧
      HaltsWith s t .selectorOutOfRange (some (encode i)) (some (s.pc - 2)) (some (s.getV x).toNat) := by
  rw [hexec, checkedSelector_outside h]
  exact raise_haltsWith .selectorOutOfRange i _ s

/-- Settles O30: each of the three instructions is a `checkedSelector`, whatever it does with the selected number. -/
theorem selectorAboveFifteenHalts : Obligations.SelectorAboveFifteenHalts := by
  intro x s i hi h
  simp only [List.mem_cons, List.not_mem_nil, or_false] at hi
  obtain rfl | rfl | rfl := hi
  · exact exec_haltsWith_of_checkedSelector (fun d => s.setI (glyphAddress d)) rfl h
  · exact exec_haltsWith_of_checkedSelector (fun k => skipIf (s.getKey k) s) rfl h
  · exact exec_haltsWith_of_checkedSelector (fun k => skipIf (!s.getKey k) s) rfl h

end Sys2Proof.Machine
end

section
/-! PROOFS. The obligations about the random byte, a sprite drawn twice and the clear display (43_random_display.md):
`RND`, `DRW` and `CLS` (R140 to R143). -/

namespace Sys2Proof.Machine

/-! ### Drawing the same sprite twice -/

/-- The cells a sprite covers depend on the two coordinate registers, `I` and memory only (R141, R143). -/
theorem spriteCovers_congr {x y : Nibble} {s t : State} (hx : t.getV x = s.getV x) (hy : t.getV y = s.getV y)
    (hbase : t.base = s.base) (hmem : ∀ a, t.readByte a = s.readByte a) (n : Nibble) (row col : Nat) :
    spriteCovers x y n t row col = spriteCovers x y n s row col := by
  have hcolumn : startColumn x t = startColumn x s := by rw [startColumn, startColumn, hx]
  have hrow : startRow y t = startRow y s := by rw [startRow, startRow, hy]
  rw [spriteCovers, spriteCovers, hcolumn, hrow, hbase, hmem]

/-- A display that is not blank has a lit cell. -/
theorem exists_lit_of_ne_blankDisplay {d : Display} (h : d ≠ blankDisplay) :
    ∃ row < 32, ∃ col < 64, cellAt d row col = true := by
  by_contra hno
  refine h (display_ext fun row hrow col hcol => ?_)
  rw [cellAt_blankDisplay, Bool.eq_false_iff]
  exact fun hlit => hno ⟨row, hrow, col, hcol, hlit⟩

/-- Settles O34: what the first draw changes is not what the second draw reads its sprite from, so by O33 both toggle
the same cells, and from a blank display the cells lit after the first are cells of the sprite. -/
theorem drawingTwiceRestoresTheDisplay : Obligations.DrawingTwiceRestoresTheDisplay := by
  intro x y n s t u hx hy hin ht hu
  obtain ⟨_, ht', htoggle, -, hclear, hregs, hkeep⟩ := drawTogglesExactlyTheSpriteCells x y n s hin
  cases ht.symm.trans ht'
  have hbase : t.base = s.base := congrArg BitVec.toNat (hkeep .index (by simp))
  obtain ⟨_, hu', htoggle', hcollide, -⟩ := drawTogglesExactlyTheSpriteCells x y n t (hbase ▸ hin)
  cases hu.symm.trans hu'
  have hcovers := spriteCovers_congr (hregs x (by simpa using hx)) (hregs y (by simpa using hy)) hbase
    (hkeep .memory (by simp)) n
  refine ⟨display_ext fun row hrow col hcol => ?_, fun hblank => ⟨hclear ?_, fun hdrew => hcollide ?_⟩⟩
  · rw [htoggle' row hrow col hcol, htoggle row hrow col hcol, hcovers, Bool.xor_assoc, Bool.xor_self, Bool.xor_false]
  · rintro ⟨row, -, col, -, -, hlit⟩
    rw [hblank, cellAt_blankDisplay] at hlit
    cases hlit
  · obtain ⟨row, hrow, col, hcol, hlit⟩ := exists_lit_of_ne_blankDisplay hdrew
    refine ⟨row, hrow, col, hcol, ?_, hlit⟩
    rwa [htoggle row hrow col hcol, hblank, cellAt_blankDisplay, Bool.false_xor, ← hcovers] at hlit

/-! ### The random byte -/

/-- A byte masked by `nn` has no bit where `nn` has none (R140). -/
theorem masked_and_not_mask (r nn : Byte) : (r &&& nn) &&& ~~~nn = 0 := by
  rw [BitVec.and_assoc, BitVec.and_not_self]
  exact BitVec.and_zero

theorem getV_rndWith_same (r : Byte) (x : Nibble) (nn : Byte) (s : State) : (rndWith r x nn s).getV x = r &&& nn :=
  s.getV_setV_same x _

/-- Settles O32: the instruction is `rndWith` of the environment's next byte, which `countDraw` takes. -/
theorem randomByteIsMasked : Obligations.RandomByteIsMasked := by
  intro x nn s
  have hbyte := getV_rndWith_same (randomByte s.env.draws) x nn s.countDraw
  refine ⟨⟨effect (.rnd x nn) s, rfl, hbyte, ?_, effect_regsKeptBut (.rnd x nn) s, rfl, rfl, rfl,
    effect_keepsAllBut (.rnd x nn) s⟩, fun r => ⟨getV_rndWith_same r x nn s, setV_regsKeptBut s x _⟩⟩
  rw [effect, hbyte, masked_and_not_mask]

/-! ### Clearing the display -/

/-- Clearing a clear display changes nothing (R142). -/
theorem setDisplay_eq_self {s : State} {d : Display} (h : s.display = d) : s.setDisplay d = s := by
  rw [← h]; rfl

/-- Settles O35. -/
theorem clearTurnsEveryCellOff : Obligations.ClearTurnsEveryCellOff := by
  intro s
  exact ⟨rfl, decodeWord_encode .cls, s.setDisplay blankDisplay, rfl, fun row _ col _ => cellAt_blankDisplay row col,
    effect_keepsAllBut .cls s, setDisplay_eq_self⟩

end Sys2Proof.Machine
end

section
/-! PROOFS. The obligations about the timers (44_keys_timers.md): the instructions that read and set them, and the only
ways the delay timer can change (R152 to R154, R181, R220). -/

namespace Sys2Proof.Machine

/-! ### Every step -/

theorem delayTimer_mem_writableParts {i : Instr} : .delayTimer ∈ writableParts i ↔ ∃ x, i = .setDt x := by
  cases i <;> simp [writableParts]

/-- A cycle changes the delay timer only by `LD DT, Vx` (R153, R220). -/
theorem CycleTo.delayTimer {u t : State} (h : CycleTo u t) :
    t.dt = u.dt ∨ ∃ x, decodeWord (fetchWord u) = some (.setDt x) ∧ t.dt = u.getV x := by
  cases h with
  | executes i hpc hi =>
    by_cases hw : .delayTimer ∈ writableParts i
    · obtain ⟨x, rfl⟩ := delayTimer_mem_writableParts.1 hw
      exact .inr ⟨x, hi, rfl⟩
    · exact .inl (effect_keepsAllBut i (afterFetch u) .delayTimer hw)
  | _ => exact .inl rfl

/-- The state an engine cycle is taken from has the registers of the state before it. -/
theorem cycleNext_getV {s u : State} (h : CycleNext s u) (x : Nibble) : u.getV x = s.getV x := by
  have hregs : u.v = s.v := cycleNext_keeps h .regs (by simp)
  rw [State.getV, State.getV, hregs]

/-- A step that takes no reset keeps the delay timer, counts it down once, or executes `LD DT, Vx`. -/
theorem StepTo.delayTimer {s t : State} (h : StepTo s t) (hreset : ∀ rest, s.env.schedule ≠ .reset :: rest) :
    t.dt = s.dt ∨ t.dt = countdown s.dt ∨
      s.mode = .running ∧ ∃ x, decodeWord (fetchWord s) = some (.setDt x) ∧ t.dt = s.getV x := by
  cases h with
  | cycle hu ht =>
    obtain hkept | ⟨x, hi, hset⟩ := ht.delayTimer
    · exact .inl (hkept.trans (cycleNext_keeps hu .delayTimer (by simp)))
    · exact .inr (.inr ⟨hu.1, x, cycleNext_fetchWord hu ▸ hi, hset.trans (cycleNext_getV hu x)⟩)
  | resets hs => exact absurd hs (hreset _)
  | ticks => exact .inr (.inl rfl)
  | _ => exact .inl rfl

/-- Settles O58: of the three ways a step can leave the delay timer (`StepTo.delayTimer`), keeping it and counting it
down neither raise it nor take more than one. -/
theorem delayTimerRisesOnlyByItsInstruction : Obligations.DelayTimerRisesOnlyByItsInstruction := by
  intro s t h hreset
  obtain hkept | htick | hset := (stepTo_of_step h).delayTimer hreset
  · exact .inl (by rw [hkept]; omega)
  · exact .inl (by rw [htick, toNat_countdown]; omega)
  · exact .inr hset

/-! ### Reading and setting the timers -/

/-- Settles O37. -/
theorem timersAreReadAndSet : Obligations.TimersAreReadAndSet := fun x s =>
  ⟨exec_writes_register rfl, effect (.setSt x) s, rfl, rfl, effect_keepsAllBut (.setSt x) s⟩

/-- Settles O38: the tick after the write counts down from `V[x]`. -/
theorem setDelayTimer : Obligations.SetDelayTimer := by
  intro x s
  have hword : (encode (.setDt x)).toNat = 0xF015 + 256 * x.toNat :=
    (toNat_xnnWord_mul_left 0xF x 0x15).trans (Nat.add_right_comm ..)
  exact ⟨hword, decodeWord_encode _, effect (.setDt x) s, rfl, rfl, effect_keepsAllBut (.setDt x) s,
    toNat_countdown (s.getV x)⟩

end Sys2Proof.Machine
end

section
/-! PROOFS. The obligations about external events (60_exceptions.md): a tick of the timers, a press and a release of a
key, and a snapshot of the display (R181, R185, R186, R191). -/

namespace Sys2Proof.Machine

/-! ### Key events -/

/-- Counting presses and setting one key's bit touches that key and the count only; the event has been taken from the
schedule first. -/
theorem setKey_setPressedCount_keeps (s : State) (rest : List Input) (n : Nat) (k : Nibble) (b : Bool) :
    KeepsAllBut [.keys, .env] s (((s.setSchedule rest).setPressedCount n).setKey k b) := by
  simp [keepsAllBut_iff]

/-- Settles O43: the two outcomes of `keyUp_cases`, each at the count that rules the other out. -/
theorem keyUpCountsDownOrHalts : Obligations.KeyUpCountsDownOrHalts := by
  intro s k rest hs hnh
  have hstep : step s = keyUp k (s.setSchedule rest) :=
    (step_input hs).trans (takeInput_keyUp (s := s.setSchedule rest) hnh)
  obtain ⟨hpos, hk⟩ | ⟨hzero, hk⟩ := keyUp_cases k (s.setSchedule rest)
  · exact ⟨fun _ => ⟨_, hstep.trans hk, Nat.sub_add_cancel hpos, State.getKey_setKey_same _ k false,
      fun j hj => State.getKey_setKey_other _ hj false, setKey_setPressedCount_keeps s rest _ k false⟩,
      fun hzero => absurd hzero hpos.ne'⟩
  · exact ⟨fun hpos => absurd hzero hpos.ne', fun _ => ⟨_, hstep.trans hk, rfl, rfl, by simp [keepsAllBut_iff]⟩⟩

/-- Settles O42: a running machine is not halted, so the press is taken, and no wait is there to be ended by it
(`keyDown_running`). -/
theorem keyDownMarksAndCounts : Obligations.KeyDownMarksAndCounts := by
  intro s k rest hs hm
  have htake := takeInput_keyDown (s := s.setSchedule rest) (k := k) fun hh => hh.not_running hm
  rw [keyDown_running (s := s.setSchedule rest) k hm] at htake
  exact ⟨_, (step_input hs).trans htake, rfl, State.getKey_setKey_same _ k true,
    fun j hj => State.getKey_setKey_other _ hj true, rfl, setKey_setPressedCount_keeps s rest _ k true⟩

/-! ### Ticks and snapshots -/

/-- Settles O41. -/
theorem tickCountsBothTimersDown : Obligations.TickCountsBothTimersDown := by
  intro s rest hs hnh
  exact ⟨_, (step_input hs).trans (takeInput_tick (s := s.setSchedule rest) hnh), toNat_countdown s.dt,
    toNat_countdown s.st, rfl, by simp [keepsAllBut_iff, tick]⟩

/-- Settles O44: `takeInput` takes a snapshot before it asks for the mode. -/
theorem snapshotEmitsTheDisplay : Obligations.SnapshotEmitsTheDisplay := by
  intro s rest hs
  exact ⟨snapshot (s.setSchedule rest), step_input hs, rfl, by simp [keepsAllBut_iff, snapshot]⟩

end Sys2Proof.Machine
end

section
/-! PROOFS. The obligations about the loader and reset (70_reset_and_hazards.md): what a load copies and when it is
refused, where the first fetch is, and what a reset restores (R210 to R214). -/

namespace Sys2Proof.Machine

/-! ### The load -/

/-- A `Load` in the loader's turn of an image that fits copies it to 0x200 upward (R24, R212). -/
theorem loadImage_open {s : State} {image : List Byte} (hopen : s.loaderOpen = true) (hlen : image.length ≤ 3584) :
    loadImage image s = .next ((s.setMem (writeBytes s.mem 0x200 image)).closeLoader) := by
  rw [loadImage, if_neg (by simp [hopen]), Config.maxImage, if_neg (Nat.not_lt.2 hlen), Config.progBase]

/-- A `Load` in the loader's turn of an image that does not fit is refused (R45, R196, log entry 5). -/
theorem loadImage_tooLong {s : State} {image : List Byte} (hopen : s.loaderOpen = true) (hlen : 3584 < image.length) :
    loadImage image s = .refused .imageTooLong := by
  rw [loadImage, if_neg (by simp [hopen]), Config.maxImage, if_pos hlen]

/-- Inside the block a write of bytes leaves byte `j` at `a + j`. -/
theorem readByte_of_mem_eq_writeBytes {s t : State} {a : Nat} {l : List Byte} (h : t.mem = writeBytes s.mem a l)
    {j : Nat} (hj : j < l.length) : t.readByte (a + j) = l[j] := by
  rw [State.readByte, h, readMem_writeBytes, dif_pos (by omega)]
  simp only [Nat.add_sub_cancel_left]

/-- Settles O45: the three outcomes of `loadImage`, each under the conditions that rule the others out. -/
theorem loadCopiesTheImage : Obligations.LoadCopiesTheImage := by
  intro s image rest hs hnh
  have hstep : step s = loadImage image (s.setSchedule rest) :=
    (step_input hs).trans (takeInput_load (s := s.setSchedule rest) hnh)
  refine ⟨fun hopen hlen => ?_, fun hopen hlen => ?_, fun hclosed => ?_⟩
  · exact ⟨_, hstep.trans (loadImage_open (s := s.setSchedule rest) hopen hlen),
      fun j hj => readByte_of_mem_eq_writeBytes (s := s) rfl hj, memoryKeptOutside_writeBytes rfl, rfl, rfl,
      by simp [keepsAllBut_iff]⟩
  · exact hstep.trans (loadImage_tooLong (s := s.setSchedule rest) hopen hlen)
  · exact hstep.trans (loadImage_closed (s := s.setSchedule rest) image hclosed)

/-! ### Reset -/

/-- Settles O46: the load of `loadCopiesTheImage` keeps `pc` and the mode, and the word at `pc` is bytes 0 and 1 of the
image. -/
theorem entryPointIsTheLoadAddress : Obligations.EntryPointIsTheLoadAddress := by
  refine ⟨rfl, fun a b rest hlen => ?_⟩
  have hnh : ¬ Halted (State.reset.setSchedule [.load (a :: b :: rest)]) := fun hh => hh.not_running rfl
  obtain ⟨hload, -, -⟩ := loadCopiesTheImage _ (a :: b :: rest) [] rfl hnh
  obtain ⟨t, ht, hbytes, -, -, henv, hkeep⟩ := hload rfl (Nat.add_le_add_right hlen 2)
  have hpc : t.pc = 0x200 := hkeep .pc (by simp)
  have hfirst : t.readByte 0x200 = a := hbytes 0 (Nat.succ_pos _)
  have hsecond : t.readByte 0x201 = b := hbytes 1 (by simp)
  refine ⟨t, ht, hpc, hkeep .mode (by simp), congrArg Env.schedule henv, ?_⟩
  rw [fetchWord, hpc]
  exact congrArg₂ wordOf hfirst hsecond

/-- Settles O47: `takeInput` takes a reset before it asks for the mode. -/
theorem resetRestoresEveryPiece : Obligations.ResetRestoresEveryPiece := by
  intro s rest hs
  exact ⟨resetEvent (s.setSchedule rest), step_input hs, by simp [keepsAllBut_iff, resetEvent], rfl⟩

end Sys2Proof.Machine
end
